-- ==== Sys2Proof/Word.lean ====
section
/-! DEFINITION. The unit of every channel is one byte and every signal is one bit (spec rules R17, R40). -/

namespace Sys2Proof

/-- A byte: an unsigned 8-bit value, bit 0 the least significant (`00_scope.md` section 5, R40). -/
abbrev Byte := BitVec 8

/-- A 1-bit signal or register (R17). -/
abbrev Bit := BitVec 1

end Sys2Proof
end

