-- ==== Sys2Proof/Syntax.lean ====
section
/-! DEFINITION. The commands: one constructor per row of the opcode table (R55), and the classes of R54. -/

namespace Sys2Proof

/-- The instructions: the 18 defined commands and the table's default row UNKNOWN, which carries the byte that
no other row matches (R55, R59). -/
inductive Instr where
  | drv0 | drv1 | drv2 | drv3 | drv4 | drv5 | drv6 | drv7
  | rst0 | rst1 | rst2 | rst3
  | read
  | blinkOn | blinkOff
  | sleepLong | sleepShort
  | quit
  | unknown (b : Byte)
  deriving DecidableEq, Repr

/-- The classes a byte can have, with the operand the byte carries (R54). -/
inductive CmdClass where
  | drv (v : BitVec 3)
  | rst (rv : BitVec 2)
  | read
  | blink (x : Bit)
  | sleepLong
  | sleepShort
  | quit
  | unknown
  deriving DecidableEq, Repr

end Sys2Proof
end

