-- ==== Sys2Proof/WellFormed.lean ====
section
/-! DEFINITION. Which terms of `Instr` stand for an instruction: every defined command, and UNKNOWN only with a byte
that no defined row matches (R55, R59). -/

namespace Sys2Proof

/-- The 18 bytes the opcode map defines (R55). -/
def definedBytes : List Byte :=
  [0x30#8, 0x31#8, 0x32#8, 0x33#8, 0x34#8, 0x35#8, 0x36#8, 0x37#8,
    0x72#8, 0x73#8, 0x74#8, 0x75#8, 0x52#8, 0x42#8, 0x62#8, 0x5A#8, 0x7A#8, 0x51#8]

/-- The one check: UNKNOWN is the default row, so its byte is none of the defined ones (R59). -/
def Instr.wf : Instr → Bool
  | .drv0 | .drv1 | .drv2 | .drv3 | .drv4 | .drv5 | .drv6 | .drv7 => true
  | .rst0 | .rst1 | .rst2 | .rst3 => true
  | .read | .blinkOn | .blinkOff | .sleepLong | .sleepShort | .quit => true
  | .unknown b => decide (b ∉ definedBytes)

end Sys2Proof
end

