-- ==== Sys2Proof/Decode.lean ====
section
/-! DEFINITION. Decoding of the command stream, total on any bytes (R53 to R60), and the encoder. -/

namespace Sys2Proof

/-- Why the decoder reads no instruction: only that there is no byte. Every byte has a meaning, because the default
row UNKNOWN takes the bytes no other row matches (R54, R59). -/
inductive DecodeError where
  | noByte
  deriving DecidableEq, Repr

/-- The defined rows of the opcode map, each matched on all 8 bits (R55). -/
def opcodeRows : List (Byte × Instr) :=
  [(0x30#8, .drv0), (0x31#8, .drv1), (0x32#8, .drv2), (0x33#8, .drv3),
    (0x34#8, .drv4), (0x35#8, .drv5), (0x36#8, .drv6), (0x37#8, .drv7),
    (0x72#8, .rst0), (0x73#8, .rst1), (0x74#8, .rst2), (0x75#8, .rst3),
    (0x52#8, .read), (0x42#8, .blinkOn), (0x62#8, .blinkOff),
    (0x5A#8, .sleepLong), (0x7A#8, .sleepShort), (0x51#8, .quit)]

/-- The instruction of a byte; a byte of no defined row is UNKNOWN (R59). -/
def decodeByte (b : Byte) : Instr := (opcodeRows.lookup b).getD (.unknown b)

/-- The first instruction of a stream and the bytes after it; every command is one byte (R53, R60). -/
def decode : List Byte → Except DecodeError (Instr × List Byte)
  | [] => .error .noByte
  | b :: rest => .ok (decodeByte b, rest)

/-- `v = b[2:0]` of the drive group (R56). -/
def drvField (b : Byte) : BitVec 3 := b.extractLsb' 0 3

/-- `b[7:3]`, which selects the drive group when it is `0b00110` (R56). -/
def drvSelect (b : Byte) : BitVec 5 := b.extractLsb' 3 5

/-- `rv = b - 0x72` of the reset group, two bits (R57). -/
def rstField (b : Byte) : BitVec 2 := (b - 0x72#8).extractLsb' 0 2

/-- `x = ~b[5]` of the blink group (R58). -/
def blinkField (b : Byte) : Bit := ~~~(b.extractLsb' 5 1)

/-- `cls : Byte -> Class` (R54): the drive group by its upper bits, the others by value, the operands by R56 to R58. -/
def cls (b : Byte) : CmdClass :=
  if drvSelect b = 0b00110#5 then .drv (drvField b)
  else if b = 0x72#8 ∨ b = 0x73#8 ∨ b = 0x74#8 ∨ b = 0x75#8 then .rst (rstField b)
  else if b = 0x52#8 then .read
  else if b = 0x42#8 ∨ b = 0x62#8 then .blink (blinkField b)
  else if b = 0x5A#8 then .sleepLong
  else if b = 0x7A#8 then .sleepShort
  else if b = 0x51#8 then .quit
  else .unknown

/-- The class the opcode map gives each mnemonic (R55, its column "class"). -/
def Instr.cls : Instr → CmdClass
  | .drv0 => .drv 0#3
  | .drv1 => .drv 1#3
  | .drv2 => .drv 2#3
  | .drv3 => .drv 3#3
  | .drv4 => .drv 4#3
  | .drv5 => .drv 5#3
  | .drv6 => .drv 6#3
  | .drv7 => .drv 7#3
  | .rst0 => .rst 0#2
  | .rst1 => .rst 1#2
  | .rst2 => .rst 2#2
  | .rst3 => .rst 3#2
  | .read => .read
  | .blinkOn => .blink 1#1
  | .blinkOff => .blink 0#1
  | .sleepLong => .sleepLong
  | .sleepShort => .sleepShort
  | .quit => .quit
  | .unknown _ => .unknown

/-- The encoder: the one byte of each instruction (R55, its column "hex"). -/
def encode : Instr → List Byte
  | .drv0 => [0x30#8]
  | .drv1 => [0x31#8]
  | .drv2 => [0x32#8]
  | .drv3 => [0x33#8]
  | .drv4 => [0x34#8]
  | .drv5 => [0x35#8]
  | .drv6 => [0x36#8]
  | .drv7 => [0x37#8]
  | .rst0 => [0x72#8]
  | .rst1 => [0x73#8]
  | .rst2 => [0x74#8]
  | .rst3 => [0x75#8]
  | .read => [0x52#8]
  | .blinkOn => [0x42#8]
  | .blinkOff => [0x62#8]
  | .sleepLong => [0x5A#8]
  | .sleepShort => [0x7A#8]
  | .quit => [0x51#8]
  | .unknown b => [b]

/-- The bytes of a table word of `nbits` bits: bits 7..0 are the first byte of the stream, bits 15..8 the second. -/
def tableBytes (nbits w : Nat) : List Byte :=
  (List.range (nbits / 8)).map fun k => BitVec.ofNat 8 (w >>> (8 * k))

/-- The instruction the decoder reads from a table word. -/
def decodeTableWord (nbits w : Nat) : Option Instr :=
  match decode (tableBytes nbits w) with
  | .ok (i, _) => some i
  | .error .noByte => none

end Sys2Proof
end

