-- ==== Sys2Proof/Config.lean ====
section
/-! DEFINITION. The parameters of the hardware (rules R6 to R14, R26), the launch parameter INIT (R141), and the
free value the model leaves without a body: the draw of `tdo` where the schedule names none (R21). -/

namespace Sys2Proof

/-- The configuration, fixed before reset and constant for the life of the hardware (R26).
The names are the spec's. -/
structure Config where
  /-- ticks per JTAG clock half-period (R6) -/
  P : Nat
  /-- ticks per microsecond (R7) -/
  U : Nat
  /-- width of the timer in bits (R8); no rule writes a value outside the timer's range -/
  TW : Nat
  /-- bytes the command channel can hold (R9) -/
  CMD_DEPTH : Nat
  /-- bytes the sample channel can hold (R9) -/
  SMP_DEPTH : Nat
  /-- largest chunk one network receive returns (R11) -/
  RECV_MAX : Nat
  /-- largest chunk one engine-output read returns (R11) -/
  READ_MAX : Nat
  /-- the platform has the TRST pin (R10) -/
  HAS_TRST : Bool
  /-- the platform has the SRST pin (R10) -/
  HAS_SRST : Bool
  /-- the platform has the indicator pin (R10) -/
  HAS_LED : Bool
  /-- an iteration cancellation is absorbed (R12) -/
  ABSORB_ITER_CANCEL : Bool
  /-- polarity of the TRST pin (R13) -/
  INV_TRST : Bool
  /-- polarity of the SRST pin (R13) -/
  INV_SRST : Bool
  /-- polarity of the indicator pin (R13) -/
  INV_LED : Bool
  deriving DecidableEq, Repr

/-- `TMAX = max(P, 1000*U)` (R8). -/
def Config.TMAX (c : Config) : Nat := max c.P (1000 * c.U)

/-- The configurations the model gives a meaning (R14); `step` refuses every other one by name. -/
abbrev Config.Admitted (c : Config) : Prop :=
  1 ≤ c.P ∧ 1 ≤ c.U ∧ 1 ≤ c.CMD_DEPTH ∧ 1 ≤ c.SMP_DEPTH ∧ 1 ≤ c.RECV_MAX ∧ 1 ≤ c.READ_MAX ∧
    c.TMAX ≤ 2 ^ c.TW

/-- DESIGN CHOICE (log 1, unsafe): the configuration that `State.reset` carries. The spec fixes none: it is a parameter,
and every state holds its own. The values are the ones its vectors use (`95_test_vectors.md` L2.1: `P = 3`, `U = 2`;
L2.8: both chunk maxima 8), with depths of 16, every pin present and not inverted, and R12's default. -/
def Config.atReset : Config where
  P := 3
  U := 2
  TW := 11
  CMD_DEPTH := 16
  SMP_DEPTH := 16
  RECV_MAX := 8
  READ_MAX := 8
  HAS_TRST := true
  HAS_SRST := true
  HAS_LED := true
  ABSORB_ITER_CANCEL := true
  INV_TRST := false
  INV_SRST := false
  INV_LED := false

/-- The six bits that reset leaves to the launch parameter INIT (R141), and that the pin trace observes (R36). -/
structure Signals where
  tck : Bit
  tms : Bit
  tdi : Bit
  trst_o : Bit
  srst_o : Bit
  blink : Bit
  deriving DecidableEq, Repr, Inhabited

/-- FREE VALUE (log 2, safe): the launch parameter INIT (R141), which takes any value and which a model must not assume
to be 0. It has no body, so nothing can be proved of it. -/
opaque Config.INIT : Signals

/-- FREE VALUE (log 4, safe): the draw `tdo(n)` (R21) of tick `n` where the schedule names no draw. It has no body. -/
opaque Config.freeTdo : Nat → Bit

end Sys2Proof
end

