-- ==== Sys2Proof/Machine/Event.lean ====
section
/-! DEFINITION. The reasons a bridge loop stops with, and the steps of the agents (R16) with the draws they make. -/

namespace Sys2Proof.Machine

open Sys2Proof

/-- The bridge's two forwarding loops (R99). -/
inductive Loop where
  /-- `OUT`: network to command channel (R100) -/
  | outbound
  /-- `IN`: sample channel to network (R101) -/
  | inbound
  deriving DecidableEq, Repr

/-- The reasons E1 to E6 a bridge loop stops with (R127). -/
inductive Reason where
  /-- E1: client closed its stream, all its bytes received (R105) -/
  | NET_EOF
  /-- E2: transport broken (R104, R114) -/
  | NET_ERROR
  /-- E3: engine-facing interface failed (R109) -/
  | IFACE_ERROR
  /-- E4: iteration cancellation with `ABSORB_ITER_CANCEL = false` (R117) -/
  | CANCELLED
  /-- E5: the supervisor stopped the survivor (R119) -/
  | CANCELLED_BY_SUP
  /-- E6: external session cancellation (R121) -/
  | SESSION_CANCELLED
  deriving DecidableEq, Repr

/-- The draw `eff` of an absorbed iteration cancellation (R118). -/
inductive AbsorbEffect where
  | keep
  | restart
  deriving DecidableEq, Repr

/-- The steps of the agents `OUT`, `IN`, `XFER`, `SUP` and `HOST` (R16), one constructor a step, with its draws. -/
inductive AgentStep where
  /-- R102, with the drawn chunk size `k` -/
  | outRecv (k : Nat)
  /-- R104 -/
  | outNetError
  /-- R105 -/
  | outNetEof
  /-- R106 -/
  | outWrite
  /-- R107 -/
  | outFlush
  /-- R109 at S2 or S3 -/
  | outIfaceError
  /-- R111, with the drawn chunk size `k` -/
  | inRead (k : Nat)
  /-- R113 -/
  | inSend
  /-- R114 -/
  | inNetError
  /-- R109 at S4 -/
  | inIfaceError
  /-- R108 -/
  | xfer
  /-- R119 -/
  | sup
  /-- R115, with the drawn bytes `d` -/
  | hostSend (d : List Byte)
  /-- R115 -/
  | hostClose
  /-- R115 -/
  | hostBreak
  /-- R117 and R118: a cancellation aimed at one loop, with the drawn effect -/
  | hostCancelIter (l : Loop) (eff : AbsorbEffect)
  /-- R121 -/
  | hostCancelSession
  /-- R122: the rest of `hbuf` is lost -/
  | loseResidue
  deriving DecidableEq, Repr

/-- One entry of the schedule (log 3): which agent steps, or one of the two events outside the session. -/
inductive Event where
  /-- `ENG`: one tick, with the draw `tdo(n)` (R21, R63) -/
  | eng (tdo : Bit)
  /-- a step of another agent -/
  | agent (a : AgentStep)
  /-- the reset input, with the launch parameter INIT (R141) -/
  | reset (init : Signals)
  /-- the launch of a new session (R143) -/
  | launch
  deriving DecidableEq, Repr

end Sys2Proof.Machine
end

