-- ==== Sys2Proof/Machine/State.lean ====
section
/-! DEFINITION. The whole state of the block as plain data (R17, R24, R27 to R31), with the model's own schedule, and
the state after reset (R141, R143). -/

namespace Sys2Proof.Machine

open Sys2Proof

/-- The engine's registers (R17). -/
structure EngState where
  tck : Bit
  tms : Bit
  tdi : Bit
  trst_o : Bit
  srst_o : Bit
  blink : Bit
  /-- the countdown timer (R22), in `[0, TMAX-1]` (log 11) -/
  timer : Nat
  deriving DecidableEq, Repr

/-- Where the outbound loop is (R29). -/
inductive OutSt where
  | Recv
  | Write (c : List Byte)
  | Flush
  | Stopped (r : Reason)
  deriving DecidableEq, Repr

/-- Where the inbound loop is (R29). -/
inductive InSt where
  | Read
  | Send (c : List Byte)
  | Stopped (r : Reason)
  deriving DecidableEq, Repr

/-- The session state (R30). -/
inductive Sess where
  | Active
  | Ending
  | Ended (r : Reason)
  deriving DecidableEq, Repr

/-- The bridge's state (R29, R30). -/
structure Bridge where
  out_st : OutSt
  in_st : InSt
  hbuf : List Byte
  first_err : Option Reason
  sess : Sess
  deriving DecidableEq, Repr

/-- The network endpoint (R31). -/
structure Net where
  net_rx : List Byte
  net_closed : Bool
  net_broken : Bool
  net_tx : List Byte
  deriving DecidableEq, Repr

/-- THE MODEL'S OWN part of the state, no register of the block: the environment's schedule with its draws (log 3), the
level on the input pin `tdo_i` in the tick being run (R21), and the tick counter that indexes the free draws (log 4). -/
structure Env where
  script : List Event
  tdo_i : Bit
  tick : Nat
  deriving DecidableEq, Repr

/-- The machine. -/
structure State where
  /-- the configuration, constant (R26) -/
  cfg : Config
  /-- the engine's registers (R17) -/
  eng : EngState
  /-- the command channel (R27) -/
  cmd_q : List Byte
  /-- the sample channel (R28) -/
  smp_q : List Byte
  /-- the stream position, a ghost (R24) -/
  pos : Nat
  /-- the bridge and the session (R29, R30) -/
  br : Bridge
  /-- the network endpoint (R31) -/
  net : Net
  /-- the model's own schedule and inputs -/
  env : Env
  deriving DecidableEq, Repr

/-- No outcome of this hardware is a fault: the engine never raises, traps or halts (R126), and the bridge's reasons E1
to E6 are recorded in its state (R128). So the type has no constructor and nobody raises it. -/
inductive Fault where
  deriving DecidableEq, Repr

/-- The situations outside the model, refused by name. -/
inductive Refusal where
  /-- raised by `exec` for an instruction without a meaning; no arm of this model raises it (safe) -/
  | notModelled (mnemonic : String)
  /-- raised by every step of a state whose configuration R14 does not admit (R128, K2.5; safe) -/
  | configNotAdmitted
  /-- raised by a reset event while the session is `Active` or `Ending` (R141, K2.6; safe) -/
  | resetDuringSession
  /-- raised by a launch event where the launch premise does not hold: the model's own event (log 7; safe) -/
  | launchPremiseFails
  deriving DecidableEq, Repr

/-- The engine's reset state for a launch parameter INIT (R141). -/
def EngState.ofInit (init : Signals) : EngState where
  tck := init.tck
  tms := init.tms
  tdi := init.tdi
  trst_o := init.trst_o
  srst_o := init.srst_o
  blink := init.blink
  timer := 0

/-- The bridge at session start (R99, R143). -/
def Bridge.atLaunch : Bridge where
  out_st := .Recv
  in_st := .Read
  hbuf := []
  first_err := none
  sess := .Active

/-- The network endpoint of a new session (R143). -/
def Net.atLaunch : Net where
  net_rx := []
  net_closed := false
  net_broken := false
  net_tx := []

/-- The schedule and inputs before any step (DESIGN CHOICE, logs 3 and 4). -/
def Env.atReset : Env where
  script := []
  tdo_i := 0#1
  tick := 0

/-- The launch premise (R143) for any configuration and any INIT: the engine in its reset state (R141) and a session just
started. Claims about runs quantify over both parameters. -/
def State.launch (cfg : Config) (init : Signals) : State where
  cfg := cfg
  eng := EngState.ofInit init
  cmd_q := []
  smp_q := []
  pos := 0
  br := Bridge.atLaunch
  net := Net.atLaunch
  env := Env.atReset

/-- The machine right after reset (R141) with its session launched (R143): INIT is the free value (log 2), the
configuration is the named one (log 1). -/
def State.reset : State := State.launch Config.atReset Config.INIT

end Sys2Proof.Machine
end

