-- ==== Sys2Proof/Machine/Operands.lean ====
section
/-! DEFINITION. The operand values the commands carry (R56 to R58) and the sample byte (R85). -/

namespace Sys2Proof.Machine

open Sys2Proof

/-- `tdi_val = v[0]` (R56, R71). -/
def tdiVal (v : BitVec 3) : Bit := v.extractLsb' 0 1

/-- `tms_val = v[1]` (R56, R71). -/
def tmsVal (v : BitVec 3) : Bit := v.extractLsb' 1 1

/-- `tck_val = v[2]` (R56, R71). -/
def tckVal (v : BitVec 3) : Bit := v.extractLsb' 2 1

/-- `srst_val = rv[0]` (R57, R80). -/
def srstVal (rv : BitVec 2) : Bit := rv.extractLsb' 0 1

/-- `trst_val = rv[1]` (R57, R80). -/
def trstVal (rv : BitVec 2) : Bit := rv.extractLsb' 1 1

/-- `0x30 | zext_8(tdo)`: ASCII `'0'` or `'1'` (R85). -/
def sampleByte (tdo : Bit) : Byte := 0x30#8 ||| tdo.zeroExtend 8

/-- The arm value of a drive command, `P - 1` (R71). -/
def driveArm (c : Config) : Nat := c.P - 1

/-- The arm value of `'Z'`, `1000*U - 1` (R91). -/
def sleepLongArm (c : Config) : Nat := 1000 * c.U - 1

/-- The arm value of `'z'`, `U - 1` (R92). -/
def sleepShortArm (c : Config) : Nat := c.U - 1

end Sys2Proof.Machine
end

