-- ==== Sys2Proof/Machine/Flags.lean ====
section
/-! DEFINITION. The block has no status flags (R23). What stands in their place are the only conditions any rule tests,
each a function of the state, and the condition codes S0 to S4 of a tick (R126). -/

namespace Sys2Proof.Machine

open Sys2Proof

/-- `CmdHead()`: the head of `cmd_q` without removing it (R42). -/
def State.cmdHead (s : State) : Option Byte := s.cmd_q.head?

/-- `SmpSpace()`: there is room in `smp_q` (R28). -/
def State.smpSpace (s : State) : Bool := decide (s.smp_q.length < s.cfg.SMP_DEPTH)

/-- The condition in which a tick ends, by the codes of R126. -/
inductive TickCond where
  /-- S0: the head byte is consumed (R66) -/
  | RUN
  /-- S1: the timer is nonzero (R64) -/
  | TIMER_WAIT
  /-- S2: there is no byte (R65) -/
  | IDLE
  /-- S3: the head is `'R'` and `smp_q` is full (R86) -/
  | BACKPRESSURE
  /-- S4: the head is an unknown byte (R97) -/
  | WEDGED
  deriving DecidableEq, Repr

/-- The condition of a byte at the head of `cmd_q`: its class first, sink space for `READ` only (R67). -/
def headCond (space : Bool) : CmdClass → TickCond
  | .drv _ => .RUN
  | .rst _ => .RUN
  | .read => if space then .RUN else .BACKPRESSURE
  | .blink _ => .RUN
  | .sleepLong => .RUN
  | .sleepShort => .RUN
  | .quit => .RUN
  | .unknown => .WEDGED

/-- The condition at the start of a tick, tested in R67's order: timer, presence, class, sink space. -/
def State.tickCond (s : State) : TickCond :=
  if s.eng.timer ≠ 0 then .TIMER_WAIT
  else match s.cmdHead with
    | none => .IDLE
    | some b => headCond s.smpSpace (cls b)

/-- The loop has stopped (R29). -/
def OutSt.isStopped : OutSt → Bool
  | .Recv => false
  | .Write _ => false
  | .Flush => false
  | .Stopped _ => true

/-- The loop has stopped (R29). -/
def InSt.isStopped : InSt → Bool
  | .Read => false
  | .Send _ => false
  | .Stopped _ => true

/-- The session has ended (R30). -/
def Sess.isEnded : Sess → Bool
  | .Active => false
  | .Ending => false
  | .Ended _ => true

/-- The reason an ended session carries (R30). -/
def Sess.reason : Sess → Option Reason
  | .Active => none
  | .Ending => none
  | .Ended r => some r

/-- The chunk the outbound loop holds, empty where it holds none (R110). -/
def OutSt.chunk : OutSt → List Byte
  | .Recv => []
  | .Write c => c
  | .Flush => []
  | .Stopped _ => []

/-- The chunk the inbound loop holds, empty where it holds none (R110). -/
def InSt.chunk : InSt → List Byte
  | .Read => []
  | .Send c => c
  | .Stopped _ => []

/-- The five suspension points (R110). -/
inductive SuspensionPoint where
  | S1_recv
  | S2_write
  | S3_flush
  | S4_read
  | S5_send
  deriving DecidableEq, Repr

/-- The suspension point a running outbound loop is at; every state of a running loop is one (R117). -/
def OutSt.suspension : OutSt → Option SuspensionPoint
  | .Recv => some .S1_recv
  | .Write _ => some .S2_write
  | .Flush => some .S3_flush
  | .Stopped _ => none

/-- The suspension point a running inbound loop is at (R117). -/
def InSt.suspension : InSt → Option SuspensionPoint
  | .Read => some .S4_read
  | .Send _ => some .S5_send
  | .Stopped _ => none

end Sys2Proof.Machine
end

