-- ==== Sys2Proof/Machine/Ops.lean ====
section
/-! DEFINITION. The named operations over the registers, the channels and the bridge that every meaning and every agent
step is made of. The block has no addressable memory (R39). A loop's error is the block's only "exception" (R126,
R127): `raiseLoop` takes it and `restartLoop` is the only return (R132). -/

namespace Sys2Proof.Machine

open Sys2Proof

/-- `CmdPop()`: remove the head of `cmd_q`; the stream position advances by 1 (R24, R42). -/
def cmdPop (s : State) : State := { s with cmd_q := s.cmd_q.tail, pos := s.pos + 1 }

/-- `SmpPush(b)`: append one byte to `smp_q` (R43). -/
def smpPush (b : Byte) (s : State) : State := { s with smp_q := s.smp_q ++ [b] }

/-- Load the timer (R22). -/
def armTimer (n : Nat) (s : State) : State := { s with eng := { s.eng with timer := n } }

/-- The decrement of a tick that starts with a nonzero timer (R64). -/
def timerDecr (s : State) : State := { s with eng := { s.eng with timer := s.eng.timer - 1 } }

/-- `Drive(v)` (R71): the three signals together, the arm, and the consumption. -/
def drive (v : BitVec 3) (s : State) : State :=
  cmdPop { s with eng := { s.eng with
    tdi := tdiVal v, tms := tmsVal v, tck := tckVal v, timer := driveArm s.cfg } }

/-- `ResetPair(rv)` (R80): both reset signals; the timer is not written. -/
def resetPair (rv : BitVec 2) (s : State) : State :=
  cmdPop { s with eng := { s.eng with srst_o := srstVal rv, trst_o := trstVal rv } }

/-- `SetBlink(x)` (R88); the timer is not written. -/
def setBlink (x : Bit) (s : State) : State := cmdPop { s with eng := { s.eng with blink := x } }

/-- A sleep (R91, R92): arm the timer, consume, touch no signal. -/
def sleep (n : Nat) (s : State) : State := cmdPop (armTimer n s)

/-- A loop's state becomes `Stopped(r)`; its held chunk, if any, is discarded (R116). -/
def Bridge.stop (l : Loop) (r : Reason) (b : Bridge) : Bridge :=
  match l with
  | .outbound => { b with out_st := .Stopped r }
  | .inbound => { b with in_st := .Stopped r }

/-- A loop is stopped. -/
def Bridge.stopped (l : Loop) (b : Bridge) : Bool :=
  match l with
  | .outbound => b.out_st.isStopped
  | .inbound => b.in_st.isStopped

/-- Both loops are stopped (R116, R120). -/
def Bridge.bothStopped (b : Bridge) : Bool := b.out_st.isStopped && b.in_st.isStopped

/-- `if first_err = none: first_err <- r` (R116, R121): the value `first_err` then has. -/
def Bridge.firstErr (b : Bridge) (r : Reason) : Reason := b.first_err.getD r

/-- `if sess = Active: sess <- Ending` (R116). -/
def Sess.afterError : Sess → Sess
  | .Active => .Ending
  | .Ending => .Ending
  | .Ended r => .Ended r

/-- `raise r` by loop `l` (R116), the one operation that takes a loop's error: the loop stops, the first reason is kept,
the session goes to `Ending`, and to `Ended(first_err)` when both loops are stopped. -/
def raiseLoop (l : Loop) (r : Reason) (s : State) : State :=
  let b := s.br.stop l r
  { s with br := { b with
      first_err := some (s.br.firstErr r)
      sess := if b.bothStopped then .Ended (s.br.firstErr r) else s.br.sess.afterError } }

/-- The restart of an absorbed iteration cancellation (R118): the loop resumes at the start of an iteration, a held chunk
is discarded whole, bytes already in `hbuf` are kept. A stopped loop is never restarted (R132). -/
def restartLoop (l : Loop) (s : State) : State :=
  match l with
  | .outbound =>
    match s.br.out_st with
    | .Recv => s
    | .Write _ => { s with br := { s.br with out_st := .Recv } }
    | .Flush => { s with br := { s.br with out_st := .Recv } }
    | .Stopped _ => s
  | .inbound =>
    match s.br.in_st with
    | .Read => s
    | .Send _ => { s with br := { s.br with in_st := .Read } }
    | .Stopped _ => s

/-- `its state <- Stopped(r)` for a loop that is not stopped; a stopped loop keeps its own reason (R121). -/
def Bridge.stopIfRunning (l : Loop) (r : Reason) (b : Bridge) : Bridge :=
  if b.stopped l then b else b.stop l r

end Sys2Proof.Machine
end

