-- ==== Sys2Proof/Machine/Blink.lean ====
section
/-! DEFINITION. The blink commands `'B'` and `'b'` (R88 to R90): they set, they do not toggle. -/

namespace Sys2Proof.Machine

open Sys2Proof

/-- `BLINK_ON` (R89): `SetBlink(1)`. -/
def execBlinkOn (s : State) : Host.Outcome State Fault Refusal := .next (setBlink 1#1 s)

/-- `BLINK_OFF` (R90): `SetBlink(0)`. -/
def execBlinkOff (s : State) : Host.Outcome State Fault Refusal := .next (setBlink 0#1 s)

end Sys2Proof.Machine
end

