-- ==== Sys2Proof/Machine/Drive.lean ====
section
/-! DEFINITION. The drive commands `'0'` to `'7'` (R71 to R79). -/

namespace Sys2Proof.Machine

open Sys2Proof

/-- `DRV0` (R72): `Drive(0)`. -/
def execDrv0 (s : State) : Host.Outcome State Fault Refusal := .next (drive 0#3 s)

/-- `DRV1` (R73): `Drive(1)`. -/
def execDrv1 (s : State) : Host.Outcome State Fault Refusal := .next (drive 1#3 s)

/-- `DRV2` (R74): `Drive(2)`. -/
def execDrv2 (s : State) : Host.Outcome State Fault Refusal := .next (drive 2#3 s)

/-- `DRV3` (R75): `Drive(3)`. -/
def execDrv3 (s : State) : Host.Outcome State Fault Refusal := .next (drive 3#3 s)

/-- `DRV4` (R76): `Drive(4)`. -/
def execDrv4 (s : State) : Host.Outcome State Fault Refusal := .next (drive 4#3 s)

/-- `DRV5` (R77): `Drive(5)`. -/
def execDrv5 (s : State) : Host.Outcome State Fault Refusal := .next (drive 5#3 s)

/-- `DRV6` (R78): `Drive(6)`. -/
def execDrv6 (s : State) : Host.Outcome State Fault Refusal := .next (drive 6#3 s)

/-- `DRV7` (R79): `Drive(7)`. -/
def execDrv7 (s : State) : Host.Outcome State Fault Refusal := .next (drive 7#3 s)

end Sys2Proof.Machine
end

