-- ==== Sys2Proof/Machine/QuitUnknown.lean ====
section
/-! DEFINITION. `'Q'` (R95, R96) and the unknown bytes (R97, R98). -/

namespace Sys2Proof.Machine

open Sys2Proof

/-- `QUIT` (R95): consume, nothing else; it does not halt the engine or end the session (R96). -/
def execQuit (s : State) : Host.Outcome State Fault Refusal := .next (cmdPop s)

/-- UNKNOWN (R97): consume nothing, push nothing, write no register. It is a hang, not a fault (R128). -/
def execUnknown (s : State) : Host.Outcome State Fault Refusal := .next s

end Sys2Proof.Machine
end

