-- ==== Sys2Proof/Machine/ResetPair.lean ====
section
/-! DEFINITION. The reset-pair commands `'r'`, `'s'`, `'t'`, `'u'` (R80 to R84). -/

namespace Sys2Proof.Machine

open Sys2Proof

/-- `RST0` (R81): `ResetPair(0)`. -/
def execRst0 (s : State) : Host.Outcome State Fault Refusal := .next (resetPair 0#2 s)

/-- `RST1` (R82): `ResetPair(1)`. -/
def execRst1 (s : State) : Host.Outcome State Fault Refusal := .next (resetPair 1#2 s)

/-- `RST2` (R83): `ResetPair(2)`. -/
def execRst2 (s : State) : Host.Outcome State Fault Refusal := .next (resetPair 2#2 s)

/-- `RST3` (R84): `ResetPair(3)`. -/
def execRst3 (s : State) : Host.Outcome State Fault Refusal := .next (resetPair 3#2 s)

end Sys2Proof.Machine
end

