-- ==== Sys2Proof/Machine/Sample.lean ====
section
/-! DEFINITION. The sample command `'R'` (R85 to R87). -/

namespace Sys2Proof.Machine

open Sys2Proof

/-- `READ` (R85): with space in `smp_q`, push the sample of this tick's `tdo` and consume; without space, nothing changes
and the byte stays at the head (R86). -/
def execRead (s : State) : Host.Outcome State Fault Refusal :=
  if s.smpSpace then .next (cmdPop (smpPush (sampleByte s.env.tdo_i) s)) else .next s

end Sys2Proof.Machine
end

