-- ==== Sys2Proof/Machine/Sleep.lean ====
section
/-! DEFINITION. The sleep commands `'Z'` and `'z'` (R91 to R94). -/

namespace Sys2Proof.Machine

open Sys2Proof

/-- `SLEEP_LONG` (R91): `timer <- 1000*U - 1`. -/
def execSleepLong (s : State) : Host.Outcome State Fault Refusal := .next (sleep (sleepLongArm s.cfg) s)

/-- `SLEEP_SHORT` (R92): `timer <- U - 1`. -/
def execSleepShort (s : State) : Host.Outcome State Fault Refusal := .next (sleep (sleepShortArm s.cfg) s)

end Sys2Proof.Machine
end

