-- ==== Sys2Proof/Machine/Dispatch.lean ====
section
/-! DEFINITION. The dispatch of every instruction to its meaning (R63, its table). -/

namespace Sys2Proof.Machine

open Sys2Proof

def exec (i : Instr) (s : State) : Host.Outcome State Fault Refusal :=
  match i with
  | .drv0 => Sys2Proof.Machine.execDrv0 s
  | .drv1 => Sys2Proof.Machine.execDrv1 s
  | .drv2 => Sys2Proof.Machine.execDrv2 s
  | .drv3 => Sys2Proof.Machine.execDrv3 s
  | .drv4 => Sys2Proof.Machine.execDrv4 s
  | .drv5 => Sys2Proof.Machine.execDrv5 s
  | .drv6 => Sys2Proof.Machine.execDrv6 s
  | .drv7 => Sys2Proof.Machine.execDrv7 s
  | .rst0 => Sys2Proof.Machine.execRst0 s
  | .rst1 => Sys2Proof.Machine.execRst1 s
  | .rst2 => Sys2Proof.Machine.execRst2 s
  | .rst3 => Sys2Proof.Machine.execRst3 s
  | .read => Sys2Proof.Machine.execRead s
  | .blinkOn => Sys2Proof.Machine.execBlinkOn s
  | .blinkOff => Sys2Proof.Machine.execBlinkOff s
  | .sleepLong => Sys2Proof.Machine.execSleepLong s
  | .sleepShort => Sys2Proof.Machine.execSleepShort s
  | .quit => Sys2Proof.Machine.execQuit s
  | .unknown _ => Sys2Proof.Machine.execUnknown s

end Sys2Proof.Machine
end

