-- ==== Sys2Proof/Machine/Cycle.lean ====
section
/-! DEFINITION. The engine's one step, the tick (R63 to R70), and the same step as the pure function R63 asks for. -/

namespace Sys2Proof.Machine

open Sys2Proof

/-- The instruction at the head of `cmd_q`, none where it is empty. The look has no side effect (R42). -/
def State.fetch (s : State) : Option Instr :=
  match decode s.cmd_q with
  | .ok (i, _) => some i
  | .error .noByte => none

/-- `EngTick(n)` (R63) in a state whose `tdo_i` is the draw `tdo(n)`: a nonzero timer only counts down (R64), an empty
channel idles (R65), otherwise the head byte's instruction acts (R66). -/
def engStep (s : State) : Host.Outcome State Fault Refusal :=
  if s.eng.timer ≠ 0 then .next (timerDecr s)
  else match s.fetch with
    | none => .next s
    | some i => exec i s

/-- The draw `tdo(n)` on the input pin of the coming tick (R21), and the tick's number. -/
def State.drawTdo (tdo : Bit) (s : State) : State :=
  { s with env := { s.env with tdo_i := tdo, tick := s.env.tick + 1 } }

/-- What the engine sees of its channels in a tick: `(CmdHead(), SmpSpace())` (R63). -/
structure ChanView where
  head : Option Byte
  space : Bool
  deriving DecidableEq, Repr

/-- The view a state gives. -/
def State.view (s : State) : ChanView := ⟨s.cmdHead, s.smpSpace⟩

/-- The act of a class on the registers: the next registers, whether to pop, and the byte to push (R63's table). -/
def classAct (c : Config) (r : EngState) (space : Bool) (tdo : Bit) :
    CmdClass → EngState × Bool × Option Byte
  | .drv v => ({ r with tdi := tdiVal v, tms := tmsVal v, tck := tckVal v, timer := driveArm c }, true, none)
  | .rst rv => ({ r with srst_o := srstVal rv, trst_o := trstVal rv }, true, none)
  | .read => if space then (r, true, some (sampleByte tdo)) else (r, false, none)
  | .blink x => ({ r with blink := x }, true, none)
  | .sleepLong => ({ r with timer := sleepLongArm c }, true, none)
  | .sleepShort => ({ r with timer := sleepShortArm c }, true, none)
  | .quit => (r, true, none)
  | .unknown => (r, false, none)

/-- `engTick : EngState -> ChanView -> Bit -> EngState x Bool x Option Byte` (R63), the engine as a pure function of its
registers, its channel view and `tdo(n)`, given the configuration. -/
def engTick (c : Config) (r : EngState) (v : ChanView) (tdo : Bit) : EngState × Bool × Option Byte :=
  if r.timer ≠ 0 then ({ r with timer := r.timer - 1 }, false, none)
  else match v.head with
    | none => (r, false, none)
    | some b => classAct c r v.space tdo (cls b)

/-- What this tick answers, for the draw on `tdo_i`. -/
def State.tickOut (s : State) : EngState × Bool × Option Byte :=
  engTick s.cfg s.eng s.view s.env.tdo_i

/-- The state after a tick that answers `o`: the registers, the pop and the push, all at the end of the tick (R63). -/
def State.apply (s : State) (o : EngState × Bool × Option Byte) : State :=
  { s with
    eng := o.1
    cmd_q := if o.2.1 then s.cmd_q.tail else s.cmd_q
    pos := if o.2.1 then s.pos + 1 else s.pos
    smp_q := s.smp_q ++ o.2.2.toList }

/-- `gap` in ticks from the consumption of a command to the next possible consumption (R70, R152); none for an unknown
byte, which is never consumed. -/
def gap (c : Config) : CmdClass → Option Nat
  | .drv _ => some c.P
  | .rst _ => some 1
  | .read => some 1
  | .blink _ => some 1
  | .sleepLong => some (1000 * c.U)
  | .sleepShort => some c.U
  | .quit => some 1
  | .unknown => none

end Sys2Proof.Machine
end

