-- ==== Sys2Proof/Machine/Bridge.lean ====
section
/-! DEFINITION. The steps of the bridge's agents, of the transport and of the environment (R102 to R122). Each is a
function that answers `none` exactly where its rule does not enable it: the agent then waits. -/

namespace Sys2Proof.Machine

open Sys2Proof

/-- Receive (R102): a nonempty prefix of `net_rx` of the drawn size `k`. -/
def outRecv (k : Nat) (s : State) : Option State :=
  match s.br.out_st with
  | .Recv =>
    if 1 ≤ k ∧ k ≤ min s.net.net_rx.length s.cfg.RECV_MAX then
      some { s with
        br := { s.br with out_st := .Write (s.net.net_rx.take k) }
        net := { s.net with net_rx := s.net.net_rx.drop k } }
    else none
  | .Write _ => none
  | .Flush => none
  | .Stopped _ => none

/-- Receive failure (R104): enabled by a broken transport even if bytes are there. -/
def outNetError (s : State) : Option State :=
  match s.br.out_st with
  | .Recv => if s.net.net_broken then some (raiseLoop .outbound .NET_ERROR s) else none
  | .Write _ => none
  | .Flush => none
  | .Stopped _ => none

/-- End of stream (R105): the client closed and all its bytes are received. -/
def outNetEof (s : State) : Option State :=
  match s.br.out_st with
  | .Recv =>
    if s.net.net_rx = [] ∧ s.net.net_closed = true then some (raiseLoop .outbound .NET_EOF s) else none
  | .Write _ => none
  | .Flush => none
  | .Stopped _ => none

/-- Write (R106): the whole chunk enters `hbuf` in one step. -/
def outWrite (s : State) : Option State :=
  match s.br.out_st with
  | .Recv => none
  | .Write c => some { s with br := { s.br with hbuf := s.br.hbuf ++ c, out_st := .Flush } }
  | .Flush => none
  | .Stopped _ => none

/-- Flush (R107): completes only when `hbuf = []`. -/
def outFlush (s : State) : Option State :=
  match s.br.out_st with
  | .Recv => none
  | .Write _ => none
  | .Flush => if s.br.hbuf = [] then some { s with br := { s.br with out_st := .Recv } } else none
  | .Stopped _ => none

/-- Interface failure of the outbound loop at write or flush (R109). -/
def outIfaceError (s : State) : Option State :=
  match s.br.out_st with
  | .Recv => none
  | .Write _ => some (raiseLoop .outbound .IFACE_ERROR s)
  | .Flush => some (raiseLoop .outbound .IFACE_ERROR s)
  | .Stopped _ => none

/-- Read (R111): a nonempty prefix of `smp_q` of the drawn size `k`. -/
def inRead (k : Nat) (s : State) : Option State :=
  match s.br.in_st with
  | .Read =>
    if 1 ≤ k ∧ k ≤ min s.smp_q.length s.cfg.READ_MAX then
      some { s with
        smp_q := s.smp_q.drop k
        br := { s.br with in_st := .Send (s.smp_q.take k) } }
    else none
  | .Send _ => none
  | .Stopped _ => none

/-- Send (R113): the whole chunk reaches the client in one step. -/
def inSend (s : State) : Option State :=
  match s.br.in_st with
  | .Read => none
  | .Send c =>
    if s.net.net_broken then none
    else some { s with
      br := { s.br with in_st := .Read }
      net := { s.net with net_tx := s.net.net_tx ++ c } }
  | .Stopped _ => none

/-- Send failure (R114): the held chunk is not delivered. -/
def inNetError (s : State) : Option State :=
  match s.br.in_st with
  | .Read => none
  | .Send _ => if s.net.net_broken then some (raiseLoop .inbound .NET_ERROR s) else none
  | .Stopped _ => none

/-- Interface failure of the inbound loop at read (R109). -/
def inIfaceError (s : State) : Option State :=
  match s.br.in_st with
  | .Read => some (raiseLoop .inbound .IFACE_ERROR s)
  | .Send _ => none
  | .Stopped _ => none

/-- Transport (R108): one byte from `hbuf` to the tail of `cmd_q` while there is room, whatever the loops do. -/
def xfer (s : State) : Option State :=
  match s.br.hbuf with
  | [] => none
  | b :: rest =>
    if s.cmd_q.length < s.cfg.CMD_DEPTH then
      some { s with cmd_q := s.cmd_q ++ [b], br := { s.br with hbuf := rest } }
    else none

/-- The supervisor's cancellation of the loop `l` that survives (R119). Where `first_err` is none, which no run reaches,
the reason is the survivor's own (log 12). -/
def cancelSurvivor (l : Loop) (s : State) : State :=
  { s with br := { s.br.stop l .CANCELLED_BY_SUP with sess := .Ended (s.br.firstErr .CANCELLED_BY_SUP) } }

/-- Supervisor (R119): enabled while the session is `Ending` and exactly one loop is not stopped. -/
def sup (s : State) : Option State :=
  match s.br.sess with
  | .Active => none
  | .Ending =>
    match s.br.out_st.isStopped, s.br.in_st.isStopped with
    | false, true => some (cancelSurvivor .outbound s)
    | true, false => some (cancelSurvivor .inbound s)
    | false, false => none
    | true, true => none
  | .Ended _ => none

/-- The client sends bytes (R115). -/
def hostSend (d : List Byte) (s : State) : Option State :=
  if s.net.net_closed = false ∧ d ≠ [] then
    some { s with net := { s.net with net_rx := s.net.net_rx ++ d } }
  else none

/-- The client closes its sending direction (R115). -/
def hostClose (s : State) : Option State :=
  if s.net.net_closed then none else some { s with net := { s.net with net_closed := true } }

/-- The transport breaks (R115). -/
def hostBreak (s : State) : Option State :=
  if s.net.net_broken then none else some { s with net := { s.net with net_broken := true } }

/-- An absorbed cancellation (R118) with its drawn effect. -/
def absorbCancel (l : Loop) (eff : AbsorbEffect) (s : State) : State :=
  match eff with
  | .keep => s
  | .restart => restartLoop l s

/-- Iteration cancellation (R115, R117): absorbed, or the error `CANCELLED` of its target. -/
def hostCancelIter (l : Loop) (eff : AbsorbEffect) (s : State) : Option State :=
  if s.br.sess.isEnded || s.br.stopped l then none
  else if s.cfg.ABSORB_ITER_CANCEL then some (absorbCancel l eff s)
  else some (raiseLoop l .CANCELLED s)

/-- Session cancellation (R121): every loop that is not stopped stops, and the session ends. -/
def hostCancelSession (s : State) : Option State :=
  if s.br.sess.isEnded then none
  else some { s with br := {
    (s.br.stopIfRunning .outbound .SESSION_CANCELLED).stopIfRunning .inbound .SESSION_CANCELLED with
      first_err := some (s.br.firstErr .SESSION_CANCELLED)
      sess := .Ended (s.br.firstErr .SESSION_CANCELLED) } }

/-- Loss of the residue (R122): enabled once the session has ended. -/
def loseResidue (s : State) : Option State :=
  if s.br.sess.isEnded then some { s with br := { s.br with hbuf := [] } } else none

/-- The step an agent takes, none where its rule does not enable it. -/
def agentStep : AgentStep → State → Option State
  | .outRecv k, s => outRecv k s
  | .outNetError, s => outNetError s
  | .outNetEof, s => outNetEof s
  | .outWrite, s => outWrite s
  | .outFlush, s => outFlush s
  | .outIfaceError, s => outIfaceError s
  | .inRead k, s => inRead k s
  | .inSend, s => inSend s
  | .inNetError, s => inNetError s
  | .inIfaceError, s => inIfaceError s
  | .xfer, s => xfer s
  | .sup, s => sup s
  | .hostSend d, s => hostSend d s
  | .hostClose, s => hostClose s
  | .hostBreak, s => hostBreak s
  | .hostCancelIter l eff, s => hostCancelIter l eff s
  | .hostCancelSession, s => hostCancelSession s
  | .loseResidue, s => loseResidue s

end Sys2Proof.Machine
end

