-- ==== Sys2Proof/Machine/Session.lean ====
section
/-! DEFINITION. The two events outside a session: reset (R141) and the launch of a session (R143). -/

namespace Sys2Proof.Machine

open Sys2Proof

/-- The engine, both channels and the stream position in their reset state for the launch parameter INIT (R141). The
bridge and the network are not touched (DEDUCED, log 8). -/
def resetEngine (init : Signals) (s : State) : State :=
  { s with eng := EngState.ofInit init, cmd_q := [], smp_q := [], pos := 0 }

/-- A reset event: modelled only while no session runs; a reset during a session is refused (R141). -/
def applyReset (init : Signals) (s : State) : Host.Outcome State Fault Refusal :=
  match s.br.sess with
  | .Active => .refused .resetDuringSession
  | .Ending => .refused .resetDuringSession
  | .Ended _ => .next (resetEngine init s)

/-- The premise of a launch (R143): no session runs, the engine is in its reset state, `hbuf = []`. With `pos = 0` no
command has been consumed since reset, so the six signal registers still hold INIT. -/
abbrev LaunchPremise (s : State) : Prop :=
  s.br.sess.isEnded = true ∧ s.eng.timer = 0 ∧ s.cmd_q = [] ∧ s.smp_q = [] ∧ s.pos = 0 ∧ s.br.hbuf = []

/-- The launch of a new session on a fresh network endpoint (R132, R143; DEDUCED, log 7). -/
def launchSession (s : State) : Host.Outcome State Fault Refusal :=
  if LaunchPremise s then .next { s with br := Bridge.atLaunch, net := Net.atLaunch }
  else .refused .launchPremiseFails

end Sys2Proof.Machine
end

