-- ==== Sys2Proof/Machine/Schedule.lean ====
section
/-! DEFINITION. One step of the block: one agent's atomic step, named by an event of the schedule (R16, R47). -/

namespace Sys2Proof.Machine

open Sys2Proof

/-- A turn of an agent: its step where its rule enables it, and otherwise it waits, which changes nothing (log 5). -/
def agentTurn (a : AgentStep) (s : State) : State := (agentStep a s).getD s

/-- One event. A configuration R14 does not admit is refused by name (R128). -/
def stepEvent (e : Event) (s : State) : Host.Outcome State Fault Refusal :=
  if s.cfg.Admitted then
    match e with
    | .eng tdo => engStep (s.drawTdo tdo)
    | .agent a => .next (agentTurn a s)
    | .reset init => applyReset init s
    | .launch => launchSession s
  else .refused .configNotAdmitted

/-- The event of the coming step: the next entry of the schedule, and an engine tick with a free draw of `tdo` where the
schedule is empty, since the clock never stops (R63; log 3). -/
def State.nextEvent (s : State) : Event :=
  match s.env.script with
  | [] => .eng (Config.freeTdo s.env.tick)
  | e :: _ => e

/-- The state with the coming entry of the schedule taken off. -/
def State.takeEvent (s : State) : State :=
  { s with env := { s.env with script := s.env.script.tail } }

/-- `s` with the bytes of a table word at the head of `cmd_q`, in place of the byte there (R42). -/
def State.withCmdHead (s : State) (nbits w : Nat) : State :=
  { s with cmd_q := tableBytes nbits w ++ s.cmd_q.tail }

/-- `s` with the timer at 0 and an engine tick as the next event, so that the coming step looks at the head of `cmd_q`
(R63); the rest of the schedule follows. -/
def State.readyToFetch (s : State) : State :=
  { s with
    eng := { s.eng with timer := 0 }
    env := { s.env with script := .eng (Config.freeTdo s.env.tick) :: s.env.script } }

end Sys2Proof.Machine
end

