-- ==== Sys2Proof/Machine/Step.lean ====
section
/-! DEFINITION. The step function of the block, and how a word is placed where it fetches next. -/

namespace Sys2Proof.Machine

open Sys2Proof

/-- One step: the coming event of the schedule, taken off it (R16, R47; log 3). -/
def step (s : State) : Host.Outcome State Fault Refusal := stepEvent s.nextEvent s.takeEvent

/-- `s` with the table word where the next step fetches its instruction: at the head of `cmd_q`, with the engine's tick
next and its timer at 0 (log 6). -/
def State.withFetchWord (s : State) (nbits w : Nat) : State := (s.withCmdHead nbits w).readyToFetch

end Sys2Proof.Machine
end

