-- ==== Sys2Proof/Machine/Ports.lean ====
section
/-! DEFINITION. The ports of the engine and the Signal Bus Adapter (R25, R32 to R34, R68, R136). -/

namespace Sys2Proof.Machine

open Sys2Proof

/-- A boolean as the level of a 1-bit port. -/
def portBit (x : Bool) : Bit := BitVec.ofBool x

/-- The level on a pin: the register's value XOR its inversion parameter (R13, R33). -/
def pinLevel (r : Bit) (inv : Bool) : Bit := r ^^^ portBit inv

/-- The constant output enable of a reset pin: `_z = 0`, always driven (R25; its bit value is the spec's decision D10). -/
def outputEnableZ : Bit := 0#1

/-- The output pins in a tick (R32, R33); a pin the platform lacks is `none` (R34). -/
structure Pins where
  tck_o : Bit
  tms_o : Bit
  tdi_o : Bit
  trst_pin : Option Bit
  trst_z : Option Bit
  srst_pin : Option Bit
  srst_z : Option Bit
  led_o : Option Bit
  deriving DecidableEq, Repr

/-- A pin that exists only where the platform has it (R34). -/
def ifPresent (has : Bool) (level : Bit) : Option Bit := if has then some level else none

/-- The adapter: each output pin carries the current value of its register (R33). -/
def State.pins (s : State) : Pins where
  tck_o := s.eng.tck
  tms_o := s.eng.tms
  tdi_o := s.eng.tdi
  trst_pin := ifPresent s.cfg.HAS_TRST (pinLevel s.eng.trst_o s.cfg.INV_TRST)
  trst_z := ifPresent s.cfg.HAS_TRST outputEnableZ
  srst_pin := ifPresent s.cfg.HAS_SRST (pinLevel s.eng.srst_o s.cfg.INV_SRST)
  srst_z := ifPresent s.cfg.HAS_SRST outputEnableZ
  led_o := ifPresent s.cfg.HAS_LED (pinLevel s.eng.blink s.cfg.INV_LED)

/-- `cmd_rdy`: `cmd_q` is not empty (R27, R32). -/
def State.cmd_rdy (s : State) : Bit := portBit (!s.cmd_q.isEmpty)

/-- `cmd_data`: the head of `cmd_q` when `cmd_rdy = 1` (R32). -/
def State.cmd_data (s : State) : Option Byte := s.cmdHead

/-- `smp_rdy`: `SmpSpace()` (R28, R32). -/
def State.smp_rdy (s : State) : Bit := portBit s.smpSpace

/-- `cmd_en`: 1 in a tick in which the engine consumes (R32, R68). -/
def State.cmd_en (s : State) : Bit := portBit s.tickOut.2.1

/-- `smp_en`: 1 in a tick in which the engine pushes (R32, R68). -/
def State.smp_en (s : State) : Bit := portBit s.tickOut.2.2.isSome

/-- `smp_data`: the sample byte, valid when `smp_en = 1` (R32, R68). -/
def State.smp_data (s : State) : Option Byte := s.tickOut.2.2

/-- The six registers a claim observes of the engine (R36). -/
def EngState.signals (r : EngState) : Signals where
  tck := r.tck
  tms := r.tms
  tdi := r.tdi
  trst_o := r.trst_o
  srst_o := r.srst_o
  blink := r.blink

end Sys2Proof.Machine
end

