-- ==== Sys2Proof/Safety.lean ====
section
/-! DEFINITION. What claims speak about: the invariant of reachable states (R37), the wedge (R97), the end of a run
(R145), observations (R36), runs with their histories, and the fairness a claim of progress may assume (R124). -/

namespace Sys2Proof.Machine

open Sys2Proof

/-- A byte is a sample: `'0'` or `'1'` (R85). -/
abbrev IsSample (b : Byte) : Prop := b = 0x30#8 ∨ b = 0x31#8

/-- Session state, loop states and `first_err` agree (R116, R119 to R121). -/
abbrev SessionConsistent (b : Bridge) : Prop :=
  (b.sess = .Active → b.out_st.isStopped = false ∧ b.in_st.isStopped = false ∧ b.first_err = none) ∧
  (b.sess = .Ending → (b.out_st.isStopped ^^ b.in_st.isStopped) = true ∧ b.first_err.isSome = true) ∧
  (b.sess.isEnded = true →
    b.out_st.isStopped = true ∧ b.in_st.isStopped = true ∧ b.first_err = b.sess.reason)

/-- A held chunk is a nonempty list (R102, R111; glossary). -/
abbrev ChunksNonempty (b : Bridge) : Prop := b.out_st ≠ .Write [] ∧ b.in_st ≠ .Send []

/-- The invariant of the machine: R37, with what it needs of the bridge. -/
abbrev Inv (s : State) : Prop :=
  s.cfg.Admitted ∧
  s.eng.timer ≤ s.cfg.TMAX - 1 ∧
  s.cmd_q.length ≤ s.cfg.CMD_DEPTH ∧
  s.smp_q.length ≤ s.cfg.SMP_DEPTH ∧
  (∀ b ∈ s.smp_q, IsSample b) ∧
  (∀ b ∈ s.br.in_st.chunk, IsSample b) ∧
  (∀ b ∈ s.net.net_tx, IsSample b) ∧
  ChunksNonempty s.br ∧
  SessionConsistent s.br

/-- `wedged(s)` (R97): the timer is 0 and the head byte of `cmd_q` is unknown. -/
abbrev Wedged (s : State) : Prop := s.eng.timer = 0 ∧ ∃ b, s.cmd_q.head? = some b ∧ cls b = .unknown

/-- A run of a session is *over* (R145). -/
abbrev Over (s : State) : Prop :=
  s.br.sess.isEnded = true ∧ s.br.hbuf = [] ∧
    (s.tickCond = .IDLE ∨ s.tickCond = .WEDGED ∨
      (s.tickCond = .BACKPRESSURE ∧ s.br.in_st.isStopped = true))

/-- What a claim may observe of a state (R36). -/
structure Observation where
  pins : Signals
  net_tx : List Byte
  sess : Sess
  first_err : Option Reason
  deriving DecidableEq, Repr

/-- The observation of a state (R36). -/
def State.observe (s : State) : Observation := ⟨s.eng.signals, s.net.net_tx, s.br.sess, s.br.first_err⟩

/-- The event is a reset, which no agent takes (R141). -/
def Event.isReset : Event → Bool
  | .eng _ => false
  | .agent _ => false
  | .reset _ => true
  | .launch => false

/-- The event lies outside the session: a reset or a launch (R141, R143). -/
def Event.isOutside : Event → Bool
  | .eng _ => false
  | .agent _ => false
  | .reset _ => true
  | .launch => true

/-- The event is an engine tick. -/
def Event.isTick : Event → Bool
  | .eng _ => true
  | .agent _ => false
  | .reset _ => false
  | .launch => false

/-- The loop whose own step an agent step is (R102 to R114). -/
def AgentStep.loop? : AgentStep → Option Loop
  | .outRecv _ | .outNetError | .outNetEof | .outWrite | .outFlush | .outIfaceError => some .outbound
  | .inRead _ | .inSend | .inNetError | .inIfaceError => some .inbound
  | .xfer | .sup => none
  | .hostSend _ | .hostClose | .hostBreak | .hostCancelIter _ _ | .hostCancelSession | .loseResidue => none

/-- The loop an iteration cancellation is aimed at (R117). -/
def AgentStep.target? : AgentStep → Option Loop
  | .hostCancelIter l _ => some l
  | .outRecv _ | .outNetError | .outNetEof | .outWrite | .outFlush | .outIfaceError => none
  | .inRead _ | .inSend | .inNetError | .inIfaceError => none
  | .xfer | .sup => none
  | .hostSend _ | .hostClose | .hostBreak | .hostCancelSession | .loseResidue => none

/-- The step raises an error, cancels, or loses the residue: what a lossless run does not hold (R125). -/
def AgentStep.mayLose : AgentStep → Bool
  | .outNetError | .outNetEof | .outIfaceError | .inNetError | .inIfaceError => true
  | .sup | .hostCancelIter _ _ | .hostCancelSession | .loseResidue => true
  | .outRecv _ | .outWrite | .outFlush | .inRead _ | .inSend | .xfer => false
  | .hostSend _ | .hostClose | .hostBreak => false

/-- The event may be part of a lossless run of one session (R125). -/
def Event.lossless : Event → Bool
  | .eng _ => true
  | .agent a => !a.mayLose
  | .reset _ => false
  | .launch => false

/-- The number of engine ticks among some events. -/
def ticks (es : List Event) : Nat := es.countP Event.isTick

/-- A finite run: the events in order, stopping at the first refusal. -/
def runEvents : List Event → State → Host.Outcome State Fault Refusal
  | [], s => .next s
  | e :: es, s =>
    match stepEvent e s with
    | .next t => runEvents es t
    | .fault r => .fault r
    | .refused r => .refused r

/-- What crossed the boundaries of the block in a run (R123, R125): the bytes the client sent, the bytes the engine
consumed, the bytes the engine pushed. -/
structure History where
  sent : List Byte
  consumed : List Byte
  pushed : List Byte
  deriving DecidableEq, Repr

/-- The empty history. -/
def History.empty : History := ⟨[], [], []⟩

/-- The bytes the client sends in a step (R115). -/
def sentBy (e : Event) (s : State) : List Byte :=
  match e with
  | .agent (.hostSend d) => if s.net.net_closed then [] else d
  | .agent _ => []
  | .eng _ => []
  | .reset _ => []
  | .launch => []

/-- The byte the engine consumes in a step, if any (R66, `cmd_en` and `cmd_data`). -/
def consumedBy (e : Event) (s : State) : List Byte :=
  match e with
  | .eng tdo => if (s.drawTdo tdo).cmd_en = 1#1 then s.cmd_data.toList else []
  | .agent _ => []
  | .reset _ => []
  | .launch => []

/-- The byte the engine pushes in a step, if any (R68, `smp_en` and `smp_data`). -/
def pushedBy (e : Event) (s : State) : List Byte :=
  match e with
  | .eng tdo => (s.drawTdo tdo).smp_data.toList
  | .agent _ => []
  | .reset _ => []
  | .launch => []

/-- The history after a step. -/
def History.extend (h : History) (e : Event) (s : State) : History :=
  ⟨h.sent ++ sentBy e s, h.consumed ++ consumedBy e s, h.pushed ++ pushedBy e s⟩

/-- A finite run with its history; none where a step is refused. -/
def runHistory : List Event → State → History → Option (State × History)
  | [], s, h => some (s, h)
  | e :: es, s, h =>
    match stepEvent e s with
    | .next t => runHistory es t (h.extend e s)
    | .fault _ => none
    | .refused _ => none

/-- The client's bytes that are still under way to the engine, in stream order (R45). -/
def State.pendingCmds (s : State) : List Byte :=
  s.cmd_q ++ s.br.hbuf ++ s.br.out_st.chunk ++ s.net.net_rx

/-- The delivered samples and those still under way to the client, in stream order (R45). -/
def State.sampleStream (s : State) : List Byte := s.net.net_tx ++ s.br.in_st.chunk ++ s.smp_q

/-- State and history agree, whatever was cancelled, failed or lost (R123): in order, what was consumed and what is under
way to the engine is a subsequence of what was sent, what is delivered and under way to the client one of what was
pushed, with one sample for each READ. -/
abbrev RelayInv (s : State) (h : History) : Prop :=
  (h.consumed ++ s.pendingCmds).Sublist h.sent ∧
  s.sampleStream.Sublist h.pushed ∧
  h.pushed.length = h.consumed.count 0x52#8 ∧
  s.pos = h.consumed.length

/-- State and history agree byte for byte (R125). -/
abbrev LosslessRelayInv (s : State) (h : History) : Prop :=
  h.sent = h.consumed ++ s.pendingCmds ∧
  h.pushed = s.sampleStream ∧
  h.pushed.length = h.consumed.count 0x52#8

/-- An infinite run: states, and the event of each step. -/
structure Run where
  st : Nat → State
  ev : Nat → Event
  step_ok : ∀ n, stepEvent (ev n) (st n) = .next (st (n + 1))

/-- The step's rule enables it in the state. -/
def AgentStep.enabledIn (a : AgentStep) (s : State) : Prop := (agentStep a s).isSome = true

/-- Weak fairness for a class of steps (R124): if from some point on one of the class is enabled in every state, then one
of the class is taken. -/
def Run.weaklyFair (r : Run) (A : AgentStep → Prop) : Prop :=
  ∀ n, (∀ m, n ≤ m → ∃ a, A a ∧ a.enabledIn (r.st m)) →
    ∃ m, n ≤ m ∧ ∃ a, A a ∧ a.enabledIn (r.st m) ∧ r.ev m = .agent a

/-- The fairness of R124: `ENG` ticks infinitely often, and an `XFER`, `SUP`, write, flush completion, receive or read step
that stays enabled is eventually taken. The draws are not forced. -/
structure Run.Fair (r : Run) : Prop where
  eng : ∀ n, ∃ m, n ≤ m ∧ (r.ev m).isTick = true
  xfer : r.weaklyFair fun a => a = .xfer
  sup : r.weaklyFair fun a => a = .sup
  write : r.weaklyFair fun a => a = .outWrite
  flush : r.weaklyFair fun a => a = .outFlush
  recv : r.weaklyFair fun a => ∃ k, a = .outRecv k
  read : r.weaklyFair fun a => ∃ k, a = .inRead k

/-- The host duty of R124 that the client reads: a send that stays enabled is eventually taken. -/
def Run.ClientReads (r : Run) : Prop := r.weaklyFair fun a => a = .inSend

end Sys2Proof.Machine
end

