-- ==== Sys2Proof/Certificates/Slice0/Obligations.lean ====
section
/-! DEFINITION. The statements about the model that are to be proved. Each docstring names the rule of the spec it
formalises, or says that it rests on a decision or inference the spec marks as its own. -/

open Sys2Proof Sys2Proof.Machine

/-! ## Encoding -/

/-- Decoding the encoding of a well-formed instruction, whatever follows it in the stream, gives it back and leaves the
rest of the stream (`30_encoding.md` sections 1 and 2). -/
def Obligations.DecodeOfEncodeIsTheInstruction : Prop :=
  ∀ (i : Instr) (rest : List Byte), i.wf = true → decode (encode i ++ rest) = .ok (i, rest)

/-- Every byte decodes to one well-formed instruction, which encodes to that byte again: no byte is rejected and no two
instructions share one (`30_encoding.md` sections 1, 2 and 4). -/
def Obligations.EveryByteDecodesAndEncodesBack : Prop :=
  ∀ (b : Byte) (rest : List Byte), ∃ i, decode (b :: rest) = .ok (i, rest) ∧ i.wf = true ∧ encode i = [b]

/-- R59: a byte is UNKNOWN exactly when the opcode map does not list it; those are 238 of the 256 values; every byte with
bit 7 set is one, and so are the rule's examples. -/
def Obligations.UndefinedBytesAreUnknown : Prop :=
  (∀ b : Byte, cls b = .unknown ↔ b ∉ definedBytes) ∧
  (∀ b : Byte, decodeByte b = .unknown b ↔ b ∉ definedBytes) ∧
  (((List.range 256).map (BitVec.ofNat 8)).filter fun b => decide (cls b = .unknown)).length = 238 ∧
  (∀ b : Byte, b.getLsbD 7 = true → cls b = .unknown) ∧
  (∀ b ∈ [0x38#8, 0x39#8, 0x2F#8, 0x71#8, 0x76#8, 0x41#8, 0x43#8, 0x53#8, 0x59#8, 0x5B#8, 0x79#8, 0x7B#8, 0x50#8,
    0x00#8, 0xB0#8, 0x58#8], cls b = .unknown)

/-- R56 and R57: the drive group is the bytes 0x30 to 0x37, which are those with `b[7:3] = 0b00110`, with the operand
`v = b[2:0]` whose bits are `tdi`, `tms`, `tck`; the reset group is the bytes 0x72 to 0x75 with the operand `b - 0x72`
whose bits are `srst`, `trst`, which is not `b[1:0]` for 't', and which is no single mask class. -/
def Obligations.OperandFieldsOfTheDriveAndResetGroups : Prop :=
  (∀ b : Byte, drvSelect b = 0b00110#5 ↔ (0x30 ≤ b.toNat ∧ b.toNat ≤ 0x37)) ∧
  (∀ (b : Byte) (v : BitVec 3), cls b = .drv v ↔ (0x30 ≤ b.toNat ∧ b.toNat ≤ 0x37 ∧ v = b.extractLsb' 0 3)) ∧
  (∀ b : Byte, tdiVal (drvField b) = b.extractLsb' 0 1 ∧ tmsVal (drvField b) = b.extractLsb' 1 1 ∧
    tckVal (drvField b) = b.extractLsb' 2 1) ∧
  (∀ (b : Byte) (rv : BitVec 2), cls b = .rst rv ↔
    (0x72 ≤ b.toNat ∧ b.toNat ≤ 0x75 ∧ rv.toNat = b.toNat - 0x72)) ∧
  (∀ rv : BitVec 2, srstVal rv = rv.extractLsb' 0 1 ∧ trstVal rv = rv.extractLsb' 1 1) ∧
  (rstField 0x74#8 = 2#2 ∧ BitVec.extractLsb' 0 2 0x74#8 = 0#2) ∧
  (BitVec.extractLsb' 1 7 0x72#8 = 0b0111001#7 ∧ BitVec.extractLsb' 1 7 0x73#8 = 0b0111001#7 ∧
    BitVec.extractLsb' 1 7 0x74#8 = 0b0111010#7 ∧ BitVec.extractLsb' 1 7 0x75#8 = 0b0111010#7)

/-- A word of each family, written out from the opcode map, decodes to its instruction (`30_encoding.md` section 2). -/
def Obligations.WordsOfTheOpcodeMapDecode : Prop :=
  decode [0b00110110#8] = .ok (.drv6, []) ∧ decode [0b01110100#8] = .ok (.rst2, []) ∧
  decode [0b01010010#8] = .ok (.read, []) ∧ decode [0b01000010#8] = .ok (.blinkOn, []) ∧
  decode [0b01100010#8] = .ok (.blinkOff, []) ∧ decode [0b01011010#8] = .ok (.sleepLong, []) ∧
  decode [0b01111010#8] = .ok (.sleepShort, []) ∧ decode [0b01010001#8] = .ok (.quit, []) ∧
  decode [0b01011000#8] = .ok (.unknown 0x58#8, []) ∧ decode [] = .error .noByte

/-! ## The step -/

/-- A step whose event is an engine tick, in a state with timer 0 whose command channel begins with instruction `i`, is
`exec i` of that state with the event taken off the schedule, the draw on `tdo_i` and the tick counted; where the
schedule is empty, the step is such a tick with a free draw (the model's choice, logs 3 and 4; `40_cycle.md`). -/
def Obligations.AStepRunsTheDecodedInstruction : Prop :=
  ∀ (s : State) (i : Instr) (rest : List Byte), s.cfg.Admitted → s.eng.timer = 0 → decode s.cmd_q = .ok (i, rest) →
    (∀ tdo es, s.env.script = .eng tdo :: es →
      step s = exec i { s with env := { script := es, tdo_i := tdo, tick := s.env.tick + 1 } }) ∧
    (s.env.script = [] →
      step s = exec i
        { s with env := { script := [], tdo_i := Config.freeTdo s.env.tick, tick := s.env.tick + 1 } })

/-- A table word placed by `withFetchWord` is the very next instruction that `step` runs (the model's convention, log 6;
`40_cycle.md`, `20_memory.md` section 3). -/
def Obligations.APlacedWordRunsNext : Prop :=
  ∀ (s : State) (w : Nat) (i : Instr), s.cfg.Admitted → decodeTableWord 8 w = some i →
    step (s.withFetchWord 8 w) = exec i
      { s with
        eng := { s.eng with timer := 0 }
        cmd_q := BitVec.ofNat 8 w :: s.cmd_q.tail
        env := { s.env with tdo_i := Config.freeTdo s.env.tick, tick := s.env.tick + 1 } }

/-- Every step of an admitted configuration whose event is no reset and no launch answers a next state, and no step ever
faults; what is refused is a configuration R14 does not admit, a reset during a session and a launch without its premise
(`60_exceptions.md` section 1: the engine never raises, traps or halts; the first two refusals are the spec's decisions
D2 and D7). The launch event and its refusal are the model's own choice (log 7; R143 and D18 give a premise for claims and
refuse nothing), and so is that the turn of an agent whose step is not enabled answers a next state, as a wait (log 5).
`Fault` has no constructor, so the clause about faults only says that the type is empty. -/
def Obligations.TheBlockNeverHalts : Prop :=
  (∀ s : State, s.cfg.Admitted → s.nextEvent.isOutside = false → ∃ t, step s = .next t) ∧
  (∀ (s : State) (f : Fault), step s ≠ .fault f) ∧
  (∀ (s : State) (r : Refusal), step s = .refused r →
    (r = .configNotAdmitted ∧ ¬ s.cfg.Admitted) ∨
    (r = .resetDuringSession ∧ s.nextEvent.isReset = true ∧ s.br.sess.isEnded = false) ∨
    (r = .launchPremiseFails ∧ s.nextEvent = .launch ∧ ¬ LaunchPremise s))

/-- A configuration with `P`, `U`, a depth or a chunk maximum of 0, or with a timer too narrow for `TMAX`, is refused by
name at every step (the spec's decision D2; `00_scope.md` section 3). -/
def Obligations.AnInadmissibleConfigurationIsRefused : Prop :=
  ∀ s : State, (s.cfg.P = 0 ∨ s.cfg.U = 0 ∨ s.cfg.CMD_DEPTH = 0 ∨ s.cfg.SMP_DEPTH = 0 ∨ s.cfg.RECV_MAX = 0 ∨
      s.cfg.READ_MAX = 0 ∨ 2 ^ s.cfg.TW < max s.cfg.P (1000 * s.cfg.U)) →
    step s = .refused .configNotAdmitted

/-! ## The tick -/

/-- R64: a tick that starts with a nonzero timer writes `timer - 1` and nothing else, whatever `cmd_q` holds; the
decrement goes no lower than 0, and when it leaves 0 the next tick is the first that can consume. -/
def Obligations.ANonzeroTimerOnlyCountsDown : Prop :=
  ∀ s : State, s.eng.timer ≠ 0 →
    engStep s = .next { s with eng := { s.eng with timer := s.eng.timer - 1 } } ∧
    s.eng.timer - 1 + 1 = s.eng.timer ∧
    (s.eng.timer = 1 → ∀ t, engStep s = .next t → t.eng.timer = 0 ∧
      ∀ i, s.fetch = some i → engStep t = exec i t) ∧
    (s.eng.timer ≠ 1 → ∀ t, engStep s = .next t → t.eng.timer ≠ 0)

/-- R65: a tick that starts with timer 0 and an empty `cmd_q` changes nothing. -/
def Obligations.AnEmptyChannelIdles : Prop :=
  ∀ s : State, s.eng.timer = 0 → s.cmd_q = [] → engStep s = .next s

/-- R66: with timer 0 and a byte at the head, the tick consumes it exactly when it is neither READ nor unknown, or is READ
with space; otherwise it consumes nothing; at most one byte is consumed and at most one pushed. -/
def Obligations.TheHeadByteIsConsumedInTwoCases : Prop :=
  ∀ (s : State) (h : Byte) (q : List Byte), s.eng.timer = 0 → s.cmd_q = h :: q →
    ∃ t, engStep s = .next t ∧
      (((cls h ≠ .read ∧ cls h ≠ .unknown) ∨ (cls h = .read ∧ s.smpSpace = true)) →
        t.cmd_q = q ∧ t.pos = s.pos + 1) ∧
      (¬ ((cls h ≠ .read ∧ cls h ≠ .unknown) ∨ (cls h = .read ∧ s.smpSpace = true)) →
        t.cmd_q = s.cmd_q ∧ t.pos = s.pos ∧ (cls h = .unknown ∨ (cls h = .read ∧ s.smpSpace = false))) ∧
      (t.smp_q = s.smp_q ∨ ∃ b, t.smp_q = s.smp_q ++ [b])

/-- The tick of the state is the pure function `engTick` of the registers, the channel view and `tdo`, applied: the same
registers, the same pop, the same push, and nothing else (`40_cycle.md`, the function it asks for). -/
def Obligations.TheTickIsThePureEngineFunction : Prop :=
  ∀ s : State, engStep s = .next (s.apply (engTick s.cfg s.eng ⟨s.cmd_q.head?, s.smpSpace⟩ s.env.tdo_i))

/-- Two states that agree on the configuration, the registers, the head byte, the sink's space and the draw of `tdo`
tick alike, whatever the bridge, the session, the network and the rest of the channels hold (`40_cycle.md` order of the
tests, `70_reset_and_hazards.md` section 3; inferences the spec marks as derived). -/
def Obligations.TheEngineDependsOnlyOnItsInputs : Prop :=
  ∀ (s u : State) (tdo : Bit), s.cfg = u.cfg → s.eng = u.eng → s.cmd_q.head? = u.cmd_q.head? →
    s.smpSpace = u.smpSpace →
    ∃ t w pushed popped, engStep (s.drawTdo tdo) = .next t ∧ engStep (u.drawTdo tdo) = .next w ∧
      t.eng = w.eng ∧
      t.smp_q = s.smp_q ++ pushed ∧ w.smp_q = u.smp_q ++ pushed ∧
      t.cmd_q = s.cmd_q.drop popped ∧ w.cmd_q = u.cmd_q.drop popped ∧
      t.pos = s.pos + popped ∧ w.pos = u.pos + popped

/-- The five conditions of a tick (`60_exceptions.md` section 1; the codes are the spec's decision D19): each is its
condition at the start of the tick, only `RUN` makes progress in the stream, and under the three waits that are not the
timer's the tick changes nothing. -/
def Obligations.TickConditionsSayWhatTheTickDoes : Prop :=
  ∀ s t : State, engStep s = .next t →
    (s.tickCond = .TIMER_WAIT ↔ s.eng.timer ≠ 0) ∧
    (s.tickCond = .IDLE ↔ s.eng.timer = 0 ∧ s.cmd_q = []) ∧
    (s.tickCond = .BACKPRESSURE ↔ s.eng.timer = 0 ∧ s.cmd_q.head? = some 0x52#8 ∧ s.smpSpace = false) ∧
    (s.tickCond = .WEDGED ↔ Wedged s) ∧
    (s.tickCond = .RUN ↔ t.pos = s.pos + 1) ∧
    (s.tickCond ≠ .RUN → t.pos = s.pos ∧ t.cmd_q = s.cmd_q ∧ t.smp_q = s.smp_q ∧
      t.eng = { s.eng with timer := s.eng.timer - 1 })

/-! ## The instructions -/

/-- The eight drive commands: each sets the three signals to its operand's bits, arms the timer to `P - 1`, consumes its
byte and changes nothing else, from every state (R73, R74, R75, R77, R78 with their encodings; the same for the other
three). -/
def Obligations.DriveCommandsSetTheSignalsAndArm : Prop :=
  (∀ s : State,
    exec .drv0 s = .next { s with
      eng := { s.eng with tdi := 0#1, tms := 0#1, tck := 0#1, timer := s.cfg.P - 1 }
      cmd_q := s.cmd_q.tail, pos := s.pos + 1 } ∧
    exec .drv1 s = .next { s with
      eng := { s.eng with tdi := 1#1, tms := 0#1, tck := 0#1, timer := s.cfg.P - 1 }
      cmd_q := s.cmd_q.tail, pos := s.pos + 1 } ∧
    exec .drv2 s = .next { s with
      eng := { s.eng with tdi := 0#1, tms := 1#1, tck := 0#1, timer := s.cfg.P - 1 }
      cmd_q := s.cmd_q.tail, pos := s.pos + 1 } ∧
    exec .drv3 s = .next { s with
      eng := { s.eng with tdi := 1#1, tms := 1#1, tck := 0#1, timer := s.cfg.P - 1 }
      cmd_q := s.cmd_q.tail, pos := s.pos + 1 } ∧
    exec .drv4 s = .next { s with
      eng := { s.eng with tdi := 0#1, tms := 0#1, tck := 1#1, timer := s.cfg.P - 1 }
      cmd_q := s.cmd_q.tail, pos := s.pos + 1 } ∧
    exec .drv5 s = .next { s with
      eng := { s.eng with tdi := 1#1, tms := 0#1, tck := 1#1, timer := s.cfg.P - 1 }
      cmd_q := s.cmd_q.tail, pos := s.pos + 1 } ∧
    exec .drv6 s = .next { s with
      eng := { s.eng with tdi := 0#1, tms := 1#1, tck := 1#1, timer := s.cfg.P - 1 }
      cmd_q := s.cmd_q.tail, pos := s.pos + 1 } ∧
    exec .drv7 s = .next { s with
      eng := { s.eng with tdi := 1#1, tms := 1#1, tck := 1#1, timer := s.cfg.P - 1 }
      cmd_q := s.cmd_q.tail, pos := s.pos + 1 }) ∧
  encode .drv0 = [0x30#8] ∧ encode .drv1 = [0x31#8] ∧ encode .drv2 = [0x32#8] ∧ encode .drv3 = [0x33#8] ∧
  encode .drv4 = [0x34#8] ∧ encode .drv5 = [0x35#8] ∧ encode .drv6 = [0x36#8] ∧ encode .drv7 = [0x37#8]

/-- R81 to R84: the four reset commands set both reset signals, consume their byte and change nothing else, the timer
neither; 't' takes `rv = 2` although its low two bits are 0; the bytes next to the group are unknown. -/
def Obligations.ResetCommandsSetBothResetSignals : Prop :=
  (∀ s : State,
    exec .rst0 s = .next { s with
      eng := { s.eng with srst_o := 0#1, trst_o := 0#1 }, cmd_q := s.cmd_q.tail, pos := s.pos + 1 } ∧
    exec .rst1 s = .next { s with
      eng := { s.eng with srst_o := 1#1, trst_o := 0#1 }, cmd_q := s.cmd_q.tail, pos := s.pos + 1 } ∧
    exec .rst2 s = .next { s with
      eng := { s.eng with srst_o := 0#1, trst_o := 1#1 }, cmd_q := s.cmd_q.tail, pos := s.pos + 1 } ∧
    exec .rst3 s = .next { s with
      eng := { s.eng with srst_o := 1#1, trst_o := 1#1 }, cmd_q := s.cmd_q.tail, pos := s.pos + 1 }) ∧
  (∀ (s : State) (q : List Byte), s.eng.timer = 0 → s.cmd_q = 0x75#8 :: 0x72#8 :: q →
    ∃ t u, engStep s = .next t ∧ engStep t = .next u ∧ t.eng.srst_o = 1#1 ∧ t.eng.trst_o = 1#1 ∧
      u.eng.srst_o = 0#1 ∧ u.eng.trst_o = 0#1) ∧
  encode .rst0 = [0x72#8] ∧ encode .rst1 = [0x73#8] ∧ encode .rst2 = [0x74#8] ∧ encode .rst3 = [0x75#8] ∧
  (BitVec.extractLsb' 0 2 0x74#8 = 0#2 ∧ rstField 0x74#8 = 2#2) ∧
  decodeByte 0x71#8 = .unknown 0x71#8 ∧ decodeByte 0x76#8 = .unknown 0x76#8

/-- R85: READ with space pushes `'0'` or `'1'` by the `tdo` of its tick, consumes its byte and writes no register; with
`SMP_DEPTH = 1` a second READ then stalls, until the inbound loop has read the sample. -/
def Obligations.ReadPushesTheSample : Prop :=
  (∀ s : State, s.smp_q.length < s.cfg.SMP_DEPTH →
    exec .read s = .next { s with
      smp_q := s.smp_q ++ [if s.env.tdo_i = 0#1 then 0x30#8 else 0x31#8]
      cmd_q := s.cmd_q.tail, pos := s.pos + 1 }) ∧
  (∀ s t : State, s.cfg.SMP_DEPTH = 1 → s.smp_q = [] → exec .read s = .next t →
    exec .read t = .next t ∧ ∀ u, agentStep (.inRead 1) t = some u → u.smpSpace = true) ∧
  encode .read = [0x52#8]

/-- READ without space does nothing: no byte is consumed or pushed and no register is written, in `exec` and in the tick
(`43_sample.md`, backpressure). -/
def Obligations.ReadWithoutSpaceStalls : Prop :=
  ∀ s : State, s.cfg.SMP_DEPTH ≤ s.smp_q.length →
    exec .read s = .next s ∧ (s.eng.timer = 0 → s.cmd_q.head? = some 0x52#8 → engStep s = .next s)

/-- R89 and R90: the blink commands set `blink` to 1 and to 0 whatever it held, consume their byte and change nothing
else; sent twice they give the same value twice. -/
def Obligations.BlinkCommandsSetTheIndicatorBit : Prop :=
  (∀ s : State,
    exec .blinkOn s = .next { s with
      eng := { s.eng with blink := 1#1 }, cmd_q := s.cmd_q.tail, pos := s.pos + 1 } ∧
    exec .blinkOff s = .next { s with
      eng := { s.eng with blink := 0#1 }, cmd_q := s.cmd_q.tail, pos := s.pos + 1 }) ∧
  encode .blinkOn = [0x42#8] ∧ encode .blinkOff = [0x62#8] ∧
  (BitVec.getLsbD 0x42#8 5 = false ∧ BitVec.getLsbD 0x62#8 5 = true) ∧
  (∀ (s : State) (q : List Byte), s.eng.timer = 0 → s.cmd_q = 0x42#8 :: 0x42#8 :: q →
    ∃ t u, engStep s = .next t ∧ engStep t = .next u ∧ t.eng.blink = 1#1 ∧ u.eng.blink = 1#1)

/-- The sleeps arm the timer to `1000*U - 1` and `U - 1`, consume their byte and change nothing else; both arms lie in the
timer's range; with `U = 1` the short sleep leaves the timer 0 (`45_sleep.md`; when the next command is consumed is
stated by `CommandsAreConsumedGapTicksApart`). -/
def Obligations.SleepCommandsArmTheTimer : Prop :=
  (∀ s : State,
    exec .sleepLong s = .next { s with
      eng := { s.eng with timer := 1000 * s.cfg.U - 1 }, cmd_q := s.cmd_q.tail, pos := s.pos + 1 } ∧
    exec .sleepShort s = .next { s with
      eng := { s.eng with timer := s.cfg.U - 1 }, cmd_q := s.cmd_q.tail, pos := s.pos + 1 }) ∧
  (∀ c : Config, 1000 * c.U - 1 ≤ c.TMAX - 1 ∧ c.U - 1 ≤ c.TMAX - 1 ∧ (c.U = 1 → c.U - 1 = 0)) ∧
  encode .sleepLong = [0x5A#8] ∧ encode .sleepShort = [0x7A#8]

/-- R95: QUIT consumes its byte and has no other effect, and the byte after it runs in the next tick, as in the rule's
example. -/
def Obligations.QuitOnlyConsumesItsByte : Prop :=
  (∀ s : State, exec .quit s = .next { s with cmd_q := s.cmd_q.tail, pos := s.pos + 1 }) ∧
  (∀ (s : State) (q : List Byte) (i : Instr), s.eng.timer = 0 → s.cmd_q = 0x51#8 :: q → decode q = .ok (i, q.tail) →
    engStep s = .next { s with cmd_q := q, pos := s.pos + 1 } ∧
    engStep { s with cmd_q := q, pos := s.pos + 1 } = exec i { s with cmd_q := q, pos := s.pos + 1 }) ∧
  (∀ (s : State) (q : List Byte), s.eng.timer = 0 → s.cmd_q = 0x51#8 :: 0x31#8 :: q →
    ∃ t u, engStep s = .next t ∧ engStep t = .next u ∧ t.eng = s.eng ∧ u.eng.tdi = 1#1 ∧ u.cmd_q = q) ∧
  encode .quit = [0x51#8]

/-- R97: an unknown byte is not consumed, nothing is pushed and no register is written: the tick of a wedged state is that
state. It answers a next state, not a fault. -/
def Obligations.AnUnknownByteDoesNothing : Prop :=
  (∀ (b : Byte) (s : State), exec (.unknown b) s = .next s) ∧
  (∀ s : State, Wedged s ↔ s.eng.timer = 0 ∧ s.cmd_q ≠ [] ∧ ∃ b, s.cmd_q.head? = some b ∧ b ∉ definedBytes) ∧
  (∀ s : State, Wedged s → engStep s = .next s) ∧
  (∀ (s : State) (tdos : List Bit), s.cfg.Admitted → s.eng.timer = 0 → s.cmd_q = [0x58#8, 0x31#8, 0x52#8] →
    ∃ t, runEvents (tdos.map .eng) s = .next t ∧ t.eng = s.eng ∧ t.cmd_q = s.cmd_q ∧ t.smp_q = s.smp_q)

/-- The frame of every instruction: it leaves the configuration, the bridge, the session, the network and the model's
schedule alone; it consumes exactly its byte or changes nothing at all; only READ touches the sample channel
(`10_state.md` section 6, `40_cycle.md`). -/
def Obligations.InstructionsTouchOnlyTheEngineAndItsChannels : Prop :=
  ∀ (i : Instr) (s : State), ∃ t, exec i s = .next t ∧
    t.cfg = s.cfg ∧ t.br = s.br ∧ t.net = s.net ∧ t.env = s.env ∧
    ((t.cmd_q = s.cmd_q.tail ∧ t.pos = s.pos + 1) ∨ t = s) ∧
    (i ≠ .read → t.smp_q = s.smp_q) ∧
    (i = .read → t.eng = s.eng)

/-- `tck`, `tms`, `tdi` are written together, only by a consumed drive command, each with its operand's bits;
`srst_o`, `trst_o` together, only by a consumed reset command; no other command, no other agent and no launch writes
them (`10_state.md` section 1); the reset pins are always driven, with the bit value 0 of the two output enables by the
spec's decision D10 (`10_state.md` section 2). -/
def Obligations.SignalGroupsHaveTheirOwnWriters : Prop :=
  (∀ (i : Instr) (v : BitVec 3) (s t : State), i.cls = .drv v → exec i s = .next t →
    t.eng.tdi = v.extractLsb' 0 1 ∧ t.eng.tms = v.extractLsb' 1 1 ∧ t.eng.tck = v.extractLsb' 2 1) ∧
  (∀ (i : Instr) (rv : BitVec 2) (s t : State), i.cls = .rst rv → exec i s = .next t →
    t.eng.srst_o = rv.extractLsb' 0 1 ∧ t.eng.trst_o = rv.extractLsb' 1 1) ∧
  (∀ s t : State, engStep s = .next t →
    ((∀ i v, s.fetch = some i → i.cls = .drv v → s.eng.timer ≠ 0) →
      t.eng.tck = s.eng.tck ∧ t.eng.tms = s.eng.tms ∧ t.eng.tdi = s.eng.tdi) ∧
    ((∀ i rv, s.fetch = some i → i.cls = .rst rv → s.eng.timer ≠ 0) →
      t.eng.srst_o = s.eng.srst_o ∧ t.eng.trst_o = s.eng.trst_o)) ∧
  (∀ (e : Event) (s t : State), e.isTick = false → e.isReset = false → stepEvent e s = .next t →
    t.eng.tck = s.eng.tck ∧ t.eng.tms = s.eng.tms ∧ t.eng.tdi = s.eng.tdi ∧
    t.eng.srst_o = s.eng.srst_o ∧ t.eng.trst_o = s.eng.trst_o) ∧
  (∀ s : State, s.pins.trst_z = (if s.cfg.HAS_TRST then some 0#1 else none) ∧
    s.pins.srst_z = (if s.cfg.HAS_SRST then some 0#1 else none))

/-- R20: `blink` is written only by the blink commands, and nothing but the indicator pin depends on it: with another value
of `blink` every step answers the same state but for `blink`. -/
def Obligations.BlinkIsOnlyForTheIndicator : Prop :=
  (∀ (i : Instr) (s t : State), i ≠ .blinkOn → i ≠ .blinkOff → exec i s = .next t → t.eng.blink = s.eng.blink) ∧
  (∀ (e : Event) (s t : State), e.isTick = false → e.isReset = false → stepEvent e s = .next t →
    t.eng.blink = s.eng.blink) ∧
  (∀ (e : Event) (s t : State) (x : Bit), stepEvent e s = .next t →
    ∃ y, stepEvent e { s with eng := { s.eng with blink := x } } =
      .next { t with eng := { t.eng with blink := y } }) ∧
  (∀ (s : State) (x : Bit), { (State.pins { s with eng := { s.eng with blink := x } }) with led_o := s.pins.led_o } = s.pins)

/-- R22: the timer stays in `[0, TMAX - 1]`; it is written only by the decrement and by a drive or sleep command consumed
in a tick that starts with timer 0, each with its arm value; every other command leaves it. -/
def Obligations.TheTimerHasOnlyItsWriters : Prop :=
  (∀ s t : State, s.cfg.Admitted → s.eng.timer ≤ s.cfg.TMAX - 1 → engStep s = .next t →
    t.eng.timer ≤ s.cfg.TMAX - 1) ∧
  (∀ s t : State, s.eng.timer ≠ 0 → engStep s = .next t → t.eng.timer = s.eng.timer - 1) ∧
  (∀ s t : State, s.eng.timer = 0 → engStep s = .next t →
    (∀ i, s.fetch = some i →
      (∀ v, i.cls = .drv v → t.eng.timer = s.cfg.P - 1) ∧
      (i = .sleepLong → t.eng.timer = 1000 * s.cfg.U - 1) ∧
      (i = .sleepShort → t.eng.timer = s.cfg.U - 1) ∧
      ((∀ v, i.cls ≠ .drv v) → i ≠ .sleepLong → i ≠ .sleepShort → t.eng.timer = 0)) ∧
    (s.fetch = none → t.eng.timer = 0)) ∧
  (∀ (e : Event) (s t : State), e.isTick = false → e.isReset = false → stepEvent e s = .next t →
    t.eng.timer = s.eng.timer)

/-! ## Timing -/

/-- Consecutive commands are consumed at least `gap` ticks apart, and exactly `gap` if nothing else stalls the next: after
the tick that consumes a command, through any steps of any agents with fewer than `gap` ticks in all, no further byte
is consumed, the signals hold and the timer counts the ticks that remain; with `gap - 1` ticks gone, the next tick runs
the byte then at the head (`40_cycle.md`, its table of gaps, an inference the spec marks as derived). -/
def Obligations.CommandsAreConsumedGapTicksApart : Prop :=
  ∀ (s t : State) (i : Instr) (g : Nat) (tdo : Bit) (es : List Event),
    s.cfg.Admitted → s.eng.timer = 0 → s.fetch = some i → gap s.cfg i.cls = some g →
    (i = .read → s.smpSpace = true) → (∀ e ∈ es, e.isReset = false) → ticks es < g →
    runEvents (.eng tdo :: es) s = .next t →
    t.pos = s.pos + 1 ∧ t.eng.timer = g - 1 - ticks es ∧
    (∃ u, engStep (s.drawTdo tdo) = .next u ∧ t.eng.signals = u.eng.signals) ∧
    (ticks es = g - 1 → ∀ j tdo', t.fetch = some j → stepEvent (.eng tdo') t = exec j (t.drawTdo tdo'))

/-- Any byte at the head of `cmd_q` but an unknown one, and but a READ without space, is consumed after exactly the ticks
the timer still counts and one more (`40_cycle.md`; an inference the spec marks as derived). -/
def Obligations.AKnownHeadIsConsumedWhenTheTimerRunsOut : Prop :=
  ∀ (s : State) (b : Byte) (q : List Byte) (tdos : List Bit), s.cfg.Admitted → s.cmd_q = b :: q →
    cls b ≠ .unknown → (cls b = .read → s.smpSpace = true) → tdos.length = s.eng.timer + 1 →
    ∃ t, runEvents (tdos.map .eng) s = .next t ∧ t.pos = s.pos + 1 ∧ t.cmd_q = q

/-- A wedge is permanent: through any steps of any agents but a reset, the state stays wedged at the same byte, every
register and the stream position hold, bytes only queue behind it, and no sample is ever produced again (`46_quit_unknown.md`;
an inference the spec marks as derived). -/
def Obligations.AWedgeIsPermanent : Prop :=
  ∀ (s t : State) (es : List Event), Wedged s → (∀ e ∈ es, e.isReset = false) → runEvents es s = .next t →
    Wedged t ∧ t.eng = s.eng ∧ t.pos = s.pos ∧ t.cmd_q.head? = s.cmd_q.head? ∧ s.cmd_q <+: t.cmd_q ∧
    t.sampleStream.Sublist s.sampleStream

/-- A READ stalled by a full sample channel stays stalled, with every register held, through any steps of any agents but
the inbound loop's read and a reset (`43_sample.md`; its last sentence is an inference the spec marks as derived). -/
def Obligations.OnlyAReadOfTheInboundLoopEndsBackpressure : Prop :=
  ∀ (s t : State) (es : List Event), s.eng.timer = 0 → s.cmd_q.head? = some 0x52#8 → s.smpSpace = false →
    (∀ e ∈ es, e.isReset = false ∧ ∀ k, e ≠ .agent (.inRead k)) → runEvents es s = .next t →
    t.eng = s.eng ∧ t.pos = s.pos ∧ t.cmd_q.head? = some 0x52#8 ∧ s.cmd_q <+: t.cmd_q ∧ t.smp_q = s.smp_q

/-! ## Invariants -/

/-- The invariant holds at the launch of a session, for every admitted configuration and every INIT (`10_state.md` section
6, whose range rule is an inference the spec marks as derived; the state at launch rests on the spec's decisions D7 and
D18, log 13). -/
def Obligations.TheInvariantHoldsAtLaunch : Prop :=
  ∀ (cfg : Config) (init : Signals), cfg.Admitted → Inv (State.launch cfg init)

/-- Every step keeps the invariant: the timer's range, both channels' bounds, only `'0'` and `'1'` among the samples, no
empty chunk, and session, loops and `first_err` in agreement (`10_state.md` section 6, `47_bridge.md`; the range rule is
an inference the spec marks as derived). -/
def Obligations.EveryStepKeepsTheInvariant : Prop :=
  ∀ s t : State, Inv s → step s = .next t → Inv t

/-! ## Ownership -/

/-- R35: no step of the bridge, the transport, the supervisor or the host writes a register of the engine or reads one:
with other registers it is enabled alike and does the same. Beside the channels, the bridge, the session and the network
it leaves all of the state alone. -/
def Obligations.OnlyTheEngineHasItsRegisters : Prop :=
  ∀ (a : AgentStep) (s : State),
    (∀ t, agentStep a s = some t → t.eng = s.eng ∧ t.pos = s.pos ∧ t.cfg = s.cfg ∧ t.env = s.env) ∧
    (∀ r : EngState, agentStep a { s with eng := r } = (agentStep a s).map fun t => { t with eng := r })

/-- R44: with a full command channel the transport waits, and with a full sample channel a READ waits; neither drops nor
overwrites a byte; each goes on once there is room. -/
def Obligations.AFullChannelMakesItsWriterWait : Prop :=
  (∀ s : State, s.cfg.Admitted → s.cfg.CMD_DEPTH ≤ s.cmd_q.length → stepEvent (.agent .xfer) s = .next s) ∧
  (∀ s : State, s.cfg.SMP_DEPTH ≤ s.smp_q.length → exec .read s = .next s) ∧
  (∀ s t : State, agentStep .xfer s = some t → s.cmd_q.length < s.cfg.CMD_DEPTH ∧ ∃ b, t.cmd_q = s.cmd_q ++ [b]) ∧
  (∀ s t : State, engStep s = .next t → t.smp_q ≠ s.smp_q →
    s.smp_q.length < s.cfg.SMP_DEPTH ∧ ∃ b, t.smp_q = s.smp_q ++ [b]) ∧
  (∀ (s : State) (b : Byte) (rest : List Byte), s.br.hbuf = b :: rest → s.cmd_q.length < s.cfg.CMD_DEPTH →
    ∃ t, agentStep .xfer s = some t ∧ t.cmd_q = s.cmd_q ++ [b] ∧ t.br.hbuf = rest) ∧
  (∀ s : State, s.smp_q.length < s.cfg.SMP_DEPTH →
    ∃ t, exec .read s = .next t ∧ t.smp_q = s.smp_q ++ [0x30#8 ||| s.env.tdo_i.zeroExtend 8])

/-! ## The bridge -/

/-- Receive: enabled for exactly the chunk sizes from 1 to the smaller of what is there and `RECV_MAX`, and then the chunk
moves from `net_rx` into the loop (`47_bridge.md` section 2; the chunk sizes are the spec's decision D11). -/
def Obligations.ReceiveTakesANonemptyPrefix : Prop :=
  ∀ (s t : State) (k : Nat), agentStep (.outRecv k) s = some t ↔
    s.br.out_st = .Recv ∧ 1 ≤ k ∧ k ≤ s.net.net_rx.length ∧ k ≤ s.cfg.RECV_MAX ∧
    t = { s with
      br := { s.br with out_st := .Write (s.net.net_rx.take k) }
      net := { s.net with net_rx := s.net.net_rx.drop k } }

/-- The receive fails with `NET_ERROR` exactly when the transport is broken, even with bytes there, and ends with `NET_EOF`
exactly when the client closed and no byte is left; with neither and no byte, the outbound loop has no step (`47_bridge.md`
section 2; the network model is the spec's decision D16). -/
def Obligations.ReceiveFailsEndsOrWaits : Prop :=
  (∀ s t : State, agentStep .outNetError s = some t ↔
    s.br.out_st = .Recv ∧ s.net.net_broken = true ∧ t = raiseLoop .outbound .NET_ERROR s) ∧
  (∀ s t : State, agentStep .outNetEof s = some t ↔
    s.br.out_st = .Recv ∧ s.net.net_rx = [] ∧ s.net.net_closed = true ∧ t = raiseLoop .outbound .NET_EOF s) ∧
  (∀ s : State, s.br.out_st = .Recv → s.net.net_rx = [] → s.net.net_closed = false → s.net.net_broken = false →
    ∀ a : AgentStep, a.loop? = some .outbound → agentStep a s = none)

/-- The write puts the whole chunk into `hbuf` in one step; the flush completes exactly when `hbuf` is empty (`47_bridge.md`
section 2; the buffering is the spec's decision D12). -/
def Obligations.WriteIsWholeAndFlushWaitsForDelivery : Prop :=
  (∀ s t : State, agentStep .outWrite s = some t ↔
    ∃ c, s.br.out_st = .Write c ∧ t = { s with br := { s.br with hbuf := s.br.hbuf ++ c, out_st := .Flush } }) ∧
  (∀ s t : State, agentStep .outFlush s = some t ↔
    s.br.out_st = .Flush ∧ s.br.hbuf = [] ∧ t = { s with br := { s.br with out_st := .Recv } })

/-- The transport moves the first byte of `hbuf` to the tail of `cmd_q`, enabled exactly when there is one and room for it,
whatever the loops and the session do (`47_bridge.md` section 2; the transport is the spec's decision D12). -/
def Obligations.TransportMovesOneByteInOrder : Prop :=
  ∀ s t : State, agentStep .xfer s = some t ↔
    ∃ b rest, s.br.hbuf = b :: rest ∧ s.cmd_q.length < s.cfg.CMD_DEPTH ∧
      t = { s with cmd_q := s.cmd_q ++ [b], br := { s.br with hbuf := rest } }

/-- The inbound read: enabled for exactly the chunk sizes from 1 to the smaller of what is there and `READ_MAX`; it frees
that much of the sample channel (`47_bridge.md` section 4; the chunk sizes are the spec's decision D11). -/
def Obligations.ReadOfSamplesTakesANonemptyPrefix : Prop :=
  ∀ (s t : State) (k : Nat), agentStep (.inRead k) s = some t ↔
    s.br.in_st = .Read ∧ 1 ≤ k ∧ k ≤ s.smp_q.length ∧ k ≤ s.cfg.READ_MAX ∧
    t = { s with smp_q := s.smp_q.drop k, br := { s.br with in_st := .Send (s.smp_q.take k) } }

/-- A held chunk is sent whole exactly while the transport is not broken (the send of `47_bridge.md` section 4); R114: with a
broken transport the send is not enabled, the loop has the error `NET_ERROR`, and the chunk is not delivered. -/
def Obligations.SendDeliversWholeOrFails : Prop :=
  (∀ s t : State, agentStep .inSend s = some t ↔
    ∃ c, s.br.in_st = .Send c ∧ s.net.net_broken = false ∧
      t = { s with br := { s.br with in_st := .Read }, net := { s.net with net_tx := s.net.net_tx ++ c } }) ∧
  (∀ s t : State, agentStep .inNetError s = some t ↔
    (∃ c, s.br.in_st = .Send c) ∧ s.net.net_broken = true ∧ t = raiseLoop .inbound .NET_ERROR s) ∧
  (∀ s : State, s.net.net_broken = true → agentStep .inSend s = none) ∧
  (∀ s t : State, agentStep .inNetError s = some t → t.net.net_tx = s.net.net_tx ∧ t.br.in_st = .Stopped .NET_ERROR)

/-- The engine-facing interface may fail at write, flush and read, and nowhere else; a failing write appends nothing
(`47_bridge.md` section 2; the spec's decision D15). -/
def Obligations.InterfaceFailureAtWriteFlushAndRead : Prop :=
  (∀ s t : State, agentStep .outIfaceError s = some t ↔
    ((∃ c, s.br.out_st = .Write c) ∨ s.br.out_st = .Flush) ∧ t = raiseLoop .outbound .IFACE_ERROR s) ∧
  (∀ s t : State, agentStep .inIfaceError s = some t ↔
    s.br.in_st = .Read ∧ t = raiseLoop .inbound .IFACE_ERROR s) ∧
  (∀ s t : State, agentStep .outIfaceError s = some t → t.br.hbuf = s.br.hbuf)

/-- R116: a loop that raises stops with the reason and loses its held chunk; the first reason is kept; the session goes from
`Active` to `Ending`, and to `Ended(first_err)` when both loops are stopped; the other loop, `hbuf`, the engine, the
channels and the network are not touched; and the supervisor can then cancel the other loop, which ends the session. -/
def Obligations.ALoopErrorStopsTheLoopAndKeepsTheFirstReason : Prop :=
  ∀ (l : Loop) (r : Reason) (s t : State), t = raiseLoop l r s →
    (l = .outbound → t.br.out_st = .Stopped r ∧ t.br.in_st = s.br.in_st) ∧
    (l = .inbound → t.br.in_st = .Stopped r ∧ t.br.out_st = s.br.out_st) ∧
    (s.br.first_err = none → t.br.first_err = some r) ∧
    (∀ f, s.br.first_err = some f → t.br.first_err = some f) ∧
    ((t.br.out_st.isStopped && t.br.in_st.isStopped) = true → ∀ f, t.br.first_err = some f → t.br.sess = .Ended f) ∧
    ((t.br.out_st.isStopped && t.br.in_st.isStopped) = false →
      (s.br.sess = .Active → t.br.sess = .Ending) ∧ (s.br.sess ≠ .Active → t.br.sess = s.br.sess)) ∧
    t.br.hbuf = s.br.hbuf ∧ t.cfg = s.cfg ∧ t.eng = s.eng ∧ t.cmd_q = s.cmd_q ∧ t.smp_q = s.smp_q ∧ t.pos = s.pos ∧
    t.net = s.net ∧ t.env = s.env ∧
    (s.br.sess = .Active → s.br.first_err = none → s.br.out_st.isStopped = false → s.br.in_st.isStopped = false →
      ∃ u, agentStep .sup t = some u ∧ u.br.sess = .Ended r ∧ u.br.out_st.isStopped = true ∧
        u.br.in_st.isStopped = true)

/-- An iteration cancellation is enabled exactly while the session has not ended and its target runs. Absorbed with `keep`
it changes nothing; absorbed with `restart` the target starts its next iteration, a held chunk is lost whole and `hbuf`
is kept; not absorbed, the target raises `CANCELLED` (`47_bridge.md` section 5; the spec's decisions D13 and D14). -/
def Obligations.IterationCancellationIsAbsorbedOrRaised : Prop :=
  (∀ (s t : State) (l : Loop) (eff : AbsorbEffect), agentStep (.hostCancelIter l eff) s = some t →
    s.br.sess.isEnded = false ∧ (l = .outbound → s.br.out_st.isStopped = false) ∧
    (l = .inbound → s.br.in_st.isStopped = false)) ∧
  (∀ (s : State) (l : Loop) (eff : AbsorbEffect), s.br.sess.isEnded = false →
    (l = .outbound → s.br.out_st.isStopped = false) → (l = .inbound → s.br.in_st.isStopped = false) →
    ∃ t, agentStep (.hostCancelIter l eff) s = some t ∧
      (s.cfg.ABSORB_ITER_CANCEL = false → t = raiseLoop l .CANCELLED s) ∧
      (s.cfg.ABSORB_ITER_CANCEL = true → eff = .keep → t = s) ∧
      (s.cfg.ABSORB_ITER_CANCEL = true → eff = .restart → l = .outbound →
        t = { s with br := { s.br with out_st := .Recv } }) ∧
      (s.cfg.ABSORB_ITER_CANCEL = true → eff = .restart → l = .inbound →
        t = { s with br := { s.br with in_st := .Read } }))

/-- The supervisor has a step exactly while the session is `Ending` with one loop running; it stops that loop with
`CANCELLED_BY_SUP`, discards its chunk and ends the session with the first error, whatever the absorb policy is
(`47_bridge.md` section 5; the spec's decision D14). -/
def Obligations.TheSupervisorStopsTheSurvivor : Prop :=
  (∀ s : State, (∃ t, agentStep .sup s = some t) ↔
    s.br.sess = .Ending ∧ (s.br.out_st.isStopped ^^ s.br.in_st.isStopped) = true) ∧
  (∀ (s t : State) (f : Reason), s.br.first_err = some f → agentStep .sup s = some t →
    (s.br.out_st.isStopped = false →
      t = { s with br := { s.br with out_st := .Stopped .CANCELLED_BY_SUP, sess := .Ended f } }) ∧
    (s.br.in_st.isStopped = false →
      t = { s with br := { s.br with in_st := .Stopped .CANCELLED_BY_SUP, sess := .Ended f } }))

/-- R121: a session cancellation is enabled exactly while the session has not ended; it stops each running loop with
`SESSION_CANCELLED`, keeps a stopped loop's own reason, records the reason if it is the first, and ends the session; no
chunk is delivered, whole or in part; no other step stops two running loops. -/
def Obligations.SessionCancellationStopsBothLoops : Prop :=
  (∀ s : State, (∃ t, agentStep .hostCancelSession s = some t) ↔ s.br.sess.isEnded = false) ∧
  (∀ s t : State, agentStep .hostCancelSession s = some t →
    t.br.out_st = (if s.br.out_st.isStopped then s.br.out_st else .Stopped .SESSION_CANCELLED) ∧
    t.br.in_st = (if s.br.in_st.isStopped then s.br.in_st else .Stopped .SESSION_CANCELLED) ∧
    t.br.first_err = some (s.br.first_err.getD .SESSION_CANCELLED) ∧
    t.br.sess = .Ended (s.br.first_err.getD .SESSION_CANCELLED) ∧
    t.br.hbuf = s.br.hbuf ∧ t.net = s.net ∧ t.cmd_q = s.cmd_q ∧ t.smp_q = s.smp_q) ∧
  (∀ (a : AgentStep) (s t : State), agentStep a s = some t → s.br.out_st.isStopped = false →
    s.br.in_st.isStopped = false → t.br.out_st.isStopped = true → t.br.in_st.isStopped = true → a = .hostCancelSession)

/-- After the session has ended, and only then, the rest of `hbuf` may be lost; the transport may still move it byte by byte,
so any part of it from its start may reach the engine; the engine keeps its registers and both channels their contents
(`47_bridge.md` section 5; the spec's decision D17). -/
def Obligations.TheResidueIsDeliveredOrLost : Prop :=
  (∀ s t : State, agentStep .loseResidue s = some t ↔
    s.br.sess.isEnded = true ∧ t = { s with br := { s.br with hbuf := [] } }) ∧
  (∀ (s : State) (c rest : List Byte), s.cfg.Admitted → s.br.sess.isEnded = true → s.br.hbuf = c ++ rest →
    s.cmd_q.length + c.length ≤ s.cfg.CMD_DEPTH →
    runEvents (List.replicate c.length (.agent .xfer) ++ [.agent .loseResidue]) s =
      .next { s with cmd_q := s.cmd_q ++ c, br := { s.br with hbuf := [] } })

/-- The host's sends, its close and its break, enabled exactly as `47_bridge.md` section 5 tables them, touch the network
endpoint only; a closed direction is never reopened and a broken transport never repaired within a session (the spec's
decision D16). -/
def Obligations.HostStepsTouchOnlyTheEndpoint : Prop :=
  (∀ (s t : State) (d : List Byte), agentStep (.hostSend d) s = some t ↔
    s.net.net_closed = false ∧ d ≠ [] ∧ t = { s with net := { s.net with net_rx := s.net.net_rx ++ d } }) ∧
  (∀ s t : State, agentStep .hostClose s = some t ↔
    s.net.net_closed = false ∧ t = { s with net := { s.net with net_closed := true } }) ∧
  (∀ s t : State, agentStep .hostBreak s = some t ↔
    s.net.net_broken = false ∧ t = { s with net := { s.net with net_broken := true } }) ∧
  (∀ (e : Event) (s t : State), e ≠ .launch → stepEvent e s = .next t →
    (s.net.net_closed = true → t.net.net_closed = true) ∧ (s.net.net_broken = true → t.net.net_broken = true))

/-- The two loops are isolated: no step of one, and no iteration cancellation aimed at it, changes the other's state or held
chunk; a step of the outbound loop leaves the sample flow alone and a step of the inbound loop the command flow
(`47_bridge.md` section 6, `20_memory.md` section 4; an inference the spec marks as derived). -/
def Obligations.TheLoopsAreIsolated : Prop :=
  ∀ (a : AgentStep) (s t : State), agentStep a s = some t →
    ((a.loop? = some .outbound ∨ a.target? = some .outbound) →
      t.br.in_st = s.br.in_st ∧ t.smp_q = s.smp_q ∧ t.net.net_tx = s.net.net_tx) ∧
    ((a.loop? = some .inbound ∨ a.target? = some .inbound) →
      t.br.out_st = s.br.out_st ∧ t.cmd_q = s.cmd_q ∧ t.br.hbuf = s.br.hbuf ∧ t.net.net_rx = s.net.net_rx)

/-- Within a session the record is sticky and the end is final: `first_err`, once set, and a stopped loop's reason never
change, and an ended session's state, loops and delivered bytes never change. The launch of a new session is left out:
it is the model's own event outside the session (log 7; `47_bridge.md` section 5, `60_exceptions.md` section 5; the sticky
record is the spec's decision D19). -/
def Obligations.TheEndOfASessionIsFinal : Prop :=
  ∀ (e : Event) (s t : State), Inv s → e ≠ .launch → stepEvent e s = .next t →
    (∀ f, s.br.first_err = some f → t.br.first_err = some f) ∧
    (∀ r, s.br.out_st = .Stopped r → t.br.out_st = .Stopped r) ∧
    (∀ r, s.br.in_st = .Stopped r → t.br.in_st = .Stopped r) ∧
    (∀ r, s.br.sess = .Ended r → t.br.sess = .Ended r ∧ t.br.out_st = s.br.out_st ∧ t.br.in_st = s.br.in_st ∧
      t.br.first_err = some r ∧ t.net.net_tx = s.net.net_tx)

/-- Nothing is duplicated or reordered, whatever is cancelled, fails or is lost: in every run of a session, what the engine
consumed and what is still under way to it are, in order, a subsequence of what the client sent; what the client got and
what is still under way to it are a subsequence of what the engine pushed; and it pushed one byte for each READ it
consumed (`47_bridge.md` section 6, `20_memory.md` section 4; an inference the spec marks as derived). -/
def Obligations.NothingIsDuplicatedOrReordered : Prop :=
  ∀ (cfg : Config) (init : Signals) (es : List Event) (t : State) (h : History),
    (∀ e ∈ es, e.isOutside = false) → runHistory es (State.launch cfg init) History.empty = some (t, h) →
    (h.consumed ++ t.pendingCmds).Sublist h.sent ∧
    t.sampleStream.Sublist h.pushed ∧
    h.pushed.length = h.consumed.count 0x52#8 ∧
    t.pos = h.consumed.length

/-- A run without an error, a cancellation or a loss relays every byte: the bytes the client sent are those consumed and
those under way, in order; the bytes pushed are those delivered and those under way, in order, one for each READ
(`47_bridge.md` section 6; an inference the spec marks as derived). -/
def Obligations.ALosslessRunRelaysEveryByte : Prop :=
  ∀ (cfg : Config) (init : Signals) (es : List Event) (t : State) (h : History),
    (∀ e ∈ es, e.lossless = true) → runHistory es (State.launch cfg init) History.empty = some (t, h) →
    h.sent = h.consumed ++ t.pendingCmds ∧
    h.pushed = t.sampleStream ∧
    h.pushed.length = h.consumed.count 0x52#8

/-- Under the spec's fairness every session in which a loop has failed ends (`47_bridge.md` sections 5 and 6; the fairness is
the spec's decision D23). -/
def Obligations.AFairRunEndsAFailedSession : Prop :=
  ∀ (r : Run) (n : Nat), r.Fair → (∀ k, (r.ev k).isOutside = false) → Inv (r.st n) → (r.st n).br.sess = .Ending →
    ∃ m, n ≤ m ∧ (r.st m).br.sess.isEnded = true

/-- Under the spec's fairness and a client that reads over a transport that does not break, a run of an active session
without an error, a cancellation, a loss or a wedge delivers everything: every byte the client has sent is at last
consumed, and every sample pushed is at last at the client (`47_bridge.md` section 6; an inference the spec marks as
derived, and the fairness is its decision D23). -/
def Obligations.AFairLosslessRunDeliversEverything : Prop :=
  ∀ r : Run, r.Fair → r.ClientReads → Inv (r.st 0) → (r.st 0).br.sess = .Active →
    (∀ n, (r.ev n).lossless = true) → (∀ n, ¬ Wedged (r.st n)) → (∀ n, (r.st n).net.net_broken = false) →
    ∀ n, ∃ m, n ≤ m ∧
      (r.st n).pos + (r.st n).pendingCmds.length ≤ (r.st m).pos ∧
      (r.st n).sampleStream.length ≤ (r.st m).net.net_tx.length

/-- A run that is over stays over, and nothing a claim may observe changes any more, until an event outside the session
(`70_reset_and_hazards.md` section 1; the definition is the spec's decision D24). -/
def Obligations.ARunThatIsOverStaysOver : Prop :=
  ∀ (e : Event) (s t : State), Inv s → Over s → e.isOutside = false → stepEvent e s = .next t →
    Over t ∧ t.observe = s.observe

/-! ## Reset and ports -/

/-- A reset outside a session puts the engine into its reset state for the drawn INIT, with both channels empty and the
position 0, and touches neither configuration, bridge nor network (that it leaves the bridge alone is the model's
reading, log 8); during a session it is refused (`70_reset_and_hazards.md` section 1; the spec's decision D7). -/
def Obligations.ResetOutsideASessionRestoresTheEngine : Prop :=
  ∀ (s : State) (init : Signals), s.cfg.Admitted →
    (s.br.sess.isEnded = true → stepEvent (.reset init) s = .next { s with
      eng := { tck := init.tck, tms := init.tms, tdi := init.tdi, trst_o := init.trst_o, srst_o := init.srst_o,
               blink := init.blink, timer := 0 }
      cmd_q := [], smp_q := [], pos := 0 }) ∧
    (s.br.sess.isEnded = false → stepEvent (.reset init) s = .refused .resetDuringSession)

/-- The launch of a session: the state every run of a session starts from, for every configuration and every INIT; the
machine after reset is such a state; and a launch event after a reset leads to such a state again (`70_reset_and_hazards.md`
section 1; the premise is the spec's decision D18, the event the model's own, log 7). -/
def Obligations.ASessionStartsFromTheLaunchPremise : Prop :=
  (∀ (cfg : Config) (init : Signals), ∃ s, s = State.launch cfg init ∧ s.cfg = cfg ∧ s.eng.signals = init ∧
    s.eng.timer = 0 ∧ s.cmd_q = [] ∧ s.smp_q = [] ∧ s.pos = 0 ∧
    s.br = { out_st := .Recv, in_st := .Read, hbuf := [], first_err := none, sess := .Active } ∧
    s.net = { net_rx := [], net_closed := false, net_broken := false, net_tx := [] }) ∧
  State.reset = State.launch State.reset.cfg Config.INIT ∧
  (∀ (s : State) (init : Signals), s.cfg.Admitted → s.br.sess.isEnded = true → s.br.hbuf = [] →
    runEvents [.reset init, .launch] s = .next { State.launch s.cfg init with env := s.env })

/-- Every output pin is its register's value, with the polarity of its parameter; a pin the platform lacks does not exist,
and the registers behind it update as ever (`10_state.md` section 5; when the pins show a write is the spec's decision D6). -/
def Obligations.PinsShowTheRegisters : Prop :=
  (∀ s : State,
    s.pins.tck_o = s.eng.tck ∧ s.pins.tms_o = s.eng.tms ∧ s.pins.tdi_o = s.eng.tdi ∧
    s.pins.trst_pin = (if s.cfg.HAS_TRST then some (if s.cfg.INV_TRST then ~~~s.eng.trst_o else s.eng.trst_o) else none) ∧
    s.pins.srst_pin = (if s.cfg.HAS_SRST then some (if s.cfg.INV_SRST then ~~~s.eng.srst_o else s.eng.srst_o) else none) ∧
    s.pins.led_o = (if s.cfg.HAS_LED then some (if s.cfg.INV_LED then ~~~s.eng.blink else s.eng.blink) else none)) ∧
  (∀ (i : Instr) (s t : State) (c : Config), exec i s = .next t → c.P = s.cfg.P → c.U = s.cfg.U →
    c.SMP_DEPTH = s.cfg.SMP_DEPTH → exec i { s with cfg := c } = .next { t with cfg := c })

/-- `cmd_en` is 1 exactly in a tick that consumes the head byte, `smp_en` exactly in a tick that pushes, and then the
byte pushed is `smp_data = 0x30 | tdo(n)`; the pins of the next tick show the registers written (`40_cycle.md`). That the
two enables are 1 only while `cmd_rdy` and `smp_rdy` are is an inference the spec marks as derived (`10_state.md` section
5), and the pins' polarity and moment are its decision D6 (log 14). -/
def Obligations.HandshakePortsReportTheTick : Prop :=
  ∀ s t : State, engStep s = .next t →
    (s.cmd_en = 1#1 ↔ t.pos = s.pos + 1) ∧
    (s.cmd_en = 1#1 → s.cmd_rdy = 1#1 ∧ s.cmd_q = (s.cmd_data.toList) ++ t.cmd_q) ∧
    (s.cmd_en ≠ 1#1 → t.cmd_q = s.cmd_q) ∧
    (s.smp_en = 1#1 ↔ t.smp_q ≠ s.smp_q) ∧
    (s.smp_en = 1#1 → s.smp_rdy = 1#1 ∧ s.cmd_data = some 0x52#8 ∧
      s.smp_data = some (0x30#8 ||| s.env.tdo_i.zeroExtend 8) ∧
      t.smp_q = s.smp_q ++ [0x30#8 ||| s.env.tdo_i.zeroExtend 8]) ∧
    t.pins.tck_o = t.eng.tck ∧ t.pins.tms_o = t.eng.tms ∧ t.pins.tdi_o = t.eng.tdi ∧
    (t.cfg.HAS_TRST = true → t.pins.trst_pin = some (t.eng.trst_o ^^^ BitVec.ofBool t.cfg.INV_TRST)) ∧
    (t.cfg.HAS_SRST = true → t.pins.srst_pin = some (t.eng.srst_o ^^^ BitVec.ofBool t.cfg.INV_SRST)) ∧
    (t.cfg.HAS_LED = true → t.pins.led_o = some (t.eng.blink ^^^ BitVec.ofBool t.cfg.INV_LED))

/-! ## The relay, step by step -/

/-- Every step of a session, from every state and history that agree, keeps them in agreement: in the form that holds
whatever is cancelled, fails or is lost, and byte for byte where the event raises, cancels and loses nothing
(`47_bridge.md` section 6, `20_memory.md` section 4; inferences the spec marks as derived). -/
def Obligations.EveryStepKeepsTheRelay : Prop :=
  (∀ (e : Event) (s t : State) (h : History), e.isOutside = false → RelayInv s h → stepEvent e s = .next t →
    RelayInv t (h.extend e s)) ∧
  (∀ (e : Event) (s t : State) (h : History), e.lossless = true → LosslessRelayInv s h → stepEvent e s = .next t →
    LosslessRelayInv t (h.extend e s))
end

