-- ==== Sys2Proof/Laws/State.lean ====
section
/-! SUPPORT. One lemma per field per update, so that no proof unfolds a record update. -/

namespace Sys2Proof.Machine

open Sys2Proof

variable (s : State)

section CmdPop
@[simp] theorem cmdPop_cfg : (cmdPop s).cfg = s.cfg := rfl
@[simp] theorem cmdPop_eng : (cmdPop s).eng = s.eng := rfl
@[simp] theorem cmdPop_cmd_q : (cmdPop s).cmd_q = s.cmd_q.tail := rfl
@[simp] theorem cmdPop_smp_q : (cmdPop s).smp_q = s.smp_q := rfl
@[simp] theorem cmdPop_pos : (cmdPop s).pos = s.pos + 1 := rfl
@[simp] theorem cmdPop_br : (cmdPop s).br = s.br := rfl
@[simp] theorem cmdPop_net : (cmdPop s).net = s.net := rfl
@[simp] theorem cmdPop_env : (cmdPop s).env = s.env := rfl
end CmdPop

section SmpPush
variable (b : Byte)
@[simp] theorem smpPush_cfg : (smpPush b s).cfg = s.cfg := rfl
@[simp] theorem smpPush_eng : (smpPush b s).eng = s.eng := rfl
@[simp] theorem smpPush_cmd_q : (smpPush b s).cmd_q = s.cmd_q := rfl
@[simp] theorem smpPush_smp_q : (smpPush b s).smp_q = s.smp_q ++ [b] := rfl
@[simp] theorem smpPush_pos : (smpPush b s).pos = s.pos := rfl
@[simp] theorem smpPush_br : (smpPush b s).br = s.br := rfl
@[simp] theorem smpPush_net : (smpPush b s).net = s.net := rfl
@[simp] theorem smpPush_env : (smpPush b s).env = s.env := rfl
end SmpPush

section Timer
variable (n : Nat)
@[simp] theorem armTimer_cfg : (armTimer n s).cfg = s.cfg := rfl
@[simp] theorem armTimer_eng : (armTimer n s).eng = { s.eng with timer := n } := rfl
@[simp] theorem armTimer_cmd_q : (armTimer n s).cmd_q = s.cmd_q := rfl
@[simp] theorem armTimer_smp_q : (armTimer n s).smp_q = s.smp_q := rfl
@[simp] theorem armTimer_pos : (armTimer n s).pos = s.pos := rfl
@[simp] theorem armTimer_br : (armTimer n s).br = s.br := rfl
@[simp] theorem armTimer_net : (armTimer n s).net = s.net := rfl
@[simp] theorem armTimer_env : (armTimer n s).env = s.env := rfl
@[simp] theorem timerDecr_cfg : (timerDecr s).cfg = s.cfg := rfl
@[simp] theorem timerDecr_eng : (timerDecr s).eng = { s.eng with timer := s.eng.timer - 1 } := rfl
@[simp] theorem timerDecr_cmd_q : (timerDecr s).cmd_q = s.cmd_q := rfl
@[simp] theorem timerDecr_smp_q : (timerDecr s).smp_q = s.smp_q := rfl
@[simp] theorem timerDecr_pos : (timerDecr s).pos = s.pos := rfl
@[simp] theorem timerDecr_br : (timerDecr s).br = s.br := rfl
@[simp] theorem timerDecr_net : (timerDecr s).net = s.net := rfl
@[simp] theorem timerDecr_env : (timerDecr s).env = s.env := rfl
end Timer

section DrawTdo
variable (tdo : Bit)
@[simp] theorem drawTdo_cfg : (s.drawTdo tdo).cfg = s.cfg := rfl
@[simp] theorem drawTdo_eng : (s.drawTdo tdo).eng = s.eng := rfl
@[simp] theorem drawTdo_cmd_q : (s.drawTdo tdo).cmd_q = s.cmd_q := rfl
@[simp] theorem drawTdo_smp_q : (s.drawTdo tdo).smp_q = s.smp_q := rfl
@[simp] theorem drawTdo_pos : (s.drawTdo tdo).pos = s.pos := rfl
@[simp] theorem drawTdo_br : (s.drawTdo tdo).br = s.br := rfl
@[simp] theorem drawTdo_net : (s.drawTdo tdo).net = s.net := rfl
@[simp] theorem drawTdo_tdo_i : (s.drawTdo tdo).env.tdo_i = tdo := rfl
@[simp] theorem drawTdo_script : (s.drawTdo tdo).env.script = s.env.script := rfl
@[simp] theorem drawTdo_tick : (s.drawTdo tdo).env.tick = s.env.tick + 1 := rfl
@[simp] theorem drawTdo_fetch : (s.drawTdo tdo).fetch = s.fetch := rfl
@[simp] theorem drawTdo_smpSpace : (s.drawTdo tdo).smpSpace = s.smpSpace := rfl
@[simp] theorem drawTdo_cmdHead : (s.drawTdo tdo).cmdHead = s.cmdHead := rfl
end DrawTdo

section TakeEvent
@[simp] theorem takeEvent_cfg : s.takeEvent.cfg = s.cfg := rfl
@[simp] theorem takeEvent_eng : s.takeEvent.eng = s.eng := rfl
@[simp] theorem takeEvent_cmd_q : s.takeEvent.cmd_q = s.cmd_q := rfl
@[simp] theorem takeEvent_smp_q : s.takeEvent.smp_q = s.smp_q := rfl
@[simp] theorem takeEvent_pos : s.takeEvent.pos = s.pos := rfl
@[simp] theorem takeEvent_br : s.takeEvent.br = s.br := rfl
@[simp] theorem takeEvent_net : s.takeEvent.net = s.net := rfl
@[simp] theorem takeEvent_script : s.takeEvent.env.script = s.env.script.tail := rfl
end TakeEvent

section Raise
variable (l : Loop) (r : Reason)
@[simp] theorem raiseLoop_cfg : (raiseLoop l r s).cfg = s.cfg := rfl
@[simp] theorem raiseLoop_eng : (raiseLoop l r s).eng = s.eng := rfl
@[simp] theorem raiseLoop_cmd_q : (raiseLoop l r s).cmd_q = s.cmd_q := rfl
@[simp] theorem raiseLoop_smp_q : (raiseLoop l r s).smp_q = s.smp_q := rfl
@[simp] theorem raiseLoop_pos : (raiseLoop l r s).pos = s.pos := rfl
@[simp] theorem raiseLoop_net : (raiseLoop l r s).net = s.net := rfl
@[simp] theorem raiseLoop_env : (raiseLoop l r s).env = s.env := rfl
@[simp] theorem raiseLoop_hbuf : (raiseLoop l r s).br.hbuf = s.br.hbuf := by cases l <;> rfl
@[simp] theorem raiseLoop_first_err : (raiseLoop l r s).br.first_err = some (s.br.firstErr r) := rfl
@[simp] theorem raise_outbound_out_st : (raiseLoop .outbound r s).br.out_st = .Stopped r := rfl
@[simp] theorem raise_outbound_in_st : (raiseLoop .outbound r s).br.in_st = s.br.in_st := rfl
@[simp] theorem raise_inbound_in_st : (raiseLoop .inbound r s).br.in_st = .Stopped r := rfl
@[simp] theorem raise_inbound_out_st : (raiseLoop .inbound r s).br.out_st = s.br.out_st := rfl
end Raise

section Restart
variable (l : Loop)
@[simp] theorem restartLoop_cfg : (restartLoop l s).cfg = s.cfg := by
  cases l <;> simp only [restartLoop] <;> split <;> rfl
@[simp] theorem restartLoop_eng : (restartLoop l s).eng = s.eng := by
  cases l <;> simp only [restartLoop] <;> split <;> rfl
@[simp] theorem restartLoop_cmd_q : (restartLoop l s).cmd_q = s.cmd_q := by
  cases l <;> simp only [restartLoop] <;> split <;> rfl
@[simp] theorem restartLoop_smp_q : (restartLoop l s).smp_q = s.smp_q := by
  cases l <;> simp only [restartLoop] <;> split <;> rfl
@[simp] theorem restartLoop_pos : (restartLoop l s).pos = s.pos := by
  cases l <;> simp only [restartLoop] <;> split <;> rfl
@[simp] theorem restartLoop_net : (restartLoop l s).net = s.net := by
  cases l <;> simp only [restartLoop] <;> split <;> rfl
@[simp] theorem restartLoop_env : (restartLoop l s).env = s.env := by
  cases l <;> simp only [restartLoop] <;> split <;> rfl
@[simp] theorem restartLoop_hbuf : (restartLoop l s).br.hbuf = s.br.hbuf := by
  cases l <;> simp only [restartLoop] <;> split <;> rfl
@[simp] theorem restartLoop_sess : (restartLoop l s).br.sess = s.br.sess := by
  cases l <;> simp only [restartLoop] <;> split <;> rfl
@[simp] theorem restartLoop_first_err : (restartLoop l s).br.first_err = s.br.first_err := by
  cases l <;> simp only [restartLoop] <;> split <;> rfl
@[simp] theorem restart_outbound_in_st : (restartLoop .outbound s).br.in_st = s.br.in_st := by
  simp only [restartLoop]; split <;> rfl
@[simp] theorem restart_inbound_out_st : (restartLoop .inbound s).br.out_st = s.br.out_st := by
  simp only [restartLoop]; split <;> rfl
end Restart

section ResetEngine
variable (init : Signals)
@[simp] theorem resetEngine_cfg : (resetEngine init s).cfg = s.cfg := rfl
@[simp] theorem resetEngine_eng : (resetEngine init s).eng = EngState.ofInit init := rfl
@[simp] theorem resetEngine_cmd_q : (resetEngine init s).cmd_q = [] := rfl
@[simp] theorem resetEngine_smp_q : (resetEngine init s).smp_q = [] := rfl
@[simp] theorem resetEngine_pos : (resetEngine init s).pos = 0 := rfl
@[simp] theorem resetEngine_br : (resetEngine init s).br = s.br := rfl
@[simp] theorem resetEngine_net : (resetEngine init s).net = s.net := rfl
@[simp] theorem resetEngine_env : (resetEngine init s).env = s.env := rfl
end ResetEngine

section Launch
variable (cfg : Config) (init : Signals)
@[simp] theorem launch_cfg : (State.launch cfg init).cfg = cfg := rfl
@[simp] theorem launch_eng : (State.launch cfg init).eng = EngState.ofInit init := rfl
@[simp] theorem launch_cmd_q : (State.launch cfg init).cmd_q = [] := rfl
@[simp] theorem launch_smp_q : (State.launch cfg init).smp_q = [] := rfl
@[simp] theorem launch_pos : (State.launch cfg init).pos = 0 := rfl
@[simp] theorem launch_br : (State.launch cfg init).br = Bridge.atLaunch := rfl
@[simp] theorem launch_net : (State.launch cfg init).net = Net.atLaunch := rfl
@[simp] theorem launch_env : (State.launch cfg init).env = Env.atReset := rfl
end Launch

end Sys2Proof.Machine
end

