-- ==== Sys2Proof/Laws/Bridge.lean ====
section
/-! SUPPORT. When each agent step is enabled and what it does: one lemma a step, each an equivalence, so that no proof
unfolds the step. -/

namespace Sys2Proof.Machine

open Sys2Proof

variable {s t : State}

theorem some_eq_iff {α : Type} {a b : α} : some a = some b ↔ b = a := by
  rw [Option.some.injEq]
  exact eq_comm

theorem outRecv_some {k : Nat} : outRecv k s = some t ↔
    s.br.out_st = .Recv ∧ (1 ≤ k ∧ k ≤ min s.net.net_rx.length s.cfg.RECV_MAX) ∧
      t = { s with br := { s.br with out_st := .Write (s.net.net_rx.take k) },
                   net := { s.net with net_rx := s.net.net_rx.drop k } } := by
  unfold outRecv
  cases h : s.br.out_st <;> simp [some_eq_iff, -Option.some.injEq]

theorem outNetError_some : outNetError s = some t ↔
    s.br.out_st = .Recv ∧ s.net.net_broken = true ∧ t = raiseLoop .outbound .NET_ERROR s := by
  unfold outNetError
  cases h : s.br.out_st <;> simp [some_eq_iff, -Option.some.injEq]

theorem outNetEof_some : outNetEof s = some t ↔
    s.br.out_st = .Recv ∧ (s.net.net_rx = [] ∧ s.net.net_closed = true) ∧ t = raiseLoop .outbound .NET_EOF s := by
  unfold outNetEof
  cases h : s.br.out_st <;> simp [some_eq_iff, -Option.some.injEq]

theorem outWrite_some : outWrite s = some t ↔
    ∃ c, s.br.out_st = .Write c ∧ t = { s with br := { s.br with hbuf := s.br.hbuf ++ c, out_st := .Flush } } := by
  unfold outWrite
  cases h : s.br.out_st <;> simp [some_eq_iff, -Option.some.injEq]

theorem outFlush_some : outFlush s = some t ↔
    s.br.out_st = .Flush ∧ s.br.hbuf = [] ∧ t = { s with br := { s.br with out_st := .Recv } } := by
  unfold outFlush
  cases h : s.br.out_st <;> simp [some_eq_iff, -Option.some.injEq]

theorem outIfaceError_some : outIfaceError s = some t ↔
    ((∃ c, s.br.out_st = .Write c) ∨ s.br.out_st = .Flush) ∧ t = raiseLoop .outbound .IFACE_ERROR s := by
  unfold outIfaceError
  cases h : s.br.out_st <;> simp [some_eq_iff, -Option.some.injEq]

theorem inRead_some {k : Nat} : inRead k s = some t ↔
    s.br.in_st = .Read ∧ (1 ≤ k ∧ k ≤ min s.smp_q.length s.cfg.READ_MAX) ∧
      t = { s with smp_q := s.smp_q.drop k, br := { s.br with in_st := .Send (s.smp_q.take k) } } := by
  unfold inRead
  cases h : s.br.in_st <;> simp [some_eq_iff, -Option.some.injEq]

theorem inSend_some : inSend s = some t ↔
    ∃ c, s.br.in_st = .Send c ∧ s.net.net_broken = false ∧
      t = { s with br := { s.br with in_st := .Read }, net := { s.net with net_tx := s.net.net_tx ++ c } } := by
  unfold inSend
  cases h : s.br.in_st <;> cases hb : s.net.net_broken <;> simp [some_eq_iff, -Option.some.injEq]

theorem inNetError_some : inNetError s = some t ↔
    (∃ c, s.br.in_st = .Send c) ∧ s.net.net_broken = true ∧ t = raiseLoop .inbound .NET_ERROR s := by
  unfold inNetError
  cases h : s.br.in_st <;> simp [some_eq_iff, -Option.some.injEq]

theorem inIfaceError_some : inIfaceError s = some t ↔
    s.br.in_st = .Read ∧ t = raiseLoop .inbound .IFACE_ERROR s := by
  unfold inIfaceError
  cases h : s.br.in_st <;> simp [some_eq_iff, -Option.some.injEq]

theorem xfer_some : xfer s = some t ↔
    ∃ b rest, s.br.hbuf = b :: rest ∧ s.cmd_q.length < s.cfg.CMD_DEPTH ∧
      t = { s with cmd_q := s.cmd_q ++ [b], br := { s.br with hbuf := rest } } := by
  unfold xfer
  cases h : s.br.hbuf <;> simp [some_eq_iff, -Option.some.injEq]

theorem sup_some : sup s = some t ↔
    s.br.sess = .Ending ∧
      ((s.br.out_st.isStopped = false ∧ s.br.in_st.isStopped = true ∧ t = cancelSurvivor .outbound s) ∨
       (s.br.out_st.isStopped = true ∧ s.br.in_st.isStopped = false ∧ t = cancelSurvivor .inbound s)) := by
  unfold sup
  cases s.br.sess <;> cases s.br.out_st.isStopped <;> cases s.br.in_st.isStopped <;> simp [some_eq_iff, -Option.some.injEq]

theorem hostSend_some {d : List Byte} : hostSend d s = some t ↔
    (s.net.net_closed = false ∧ d ≠ []) ∧ t = { s with net := { s.net with net_rx := s.net.net_rx ++ d } } := by
  unfold hostSend
  split <;> simp_all [some_eq_iff, -Option.some.injEq]

theorem hostClose_some : hostClose s = some t ↔
    s.net.net_closed = false ∧ t = { s with net := { s.net with net_closed := true } } := by
  unfold hostClose
  split <;> simp_all [some_eq_iff, -Option.some.injEq]

theorem hostBreak_some : hostBreak s = some t ↔
    s.net.net_broken = false ∧ t = { s with net := { s.net with net_broken := true } } := by
  unfold hostBreak
  split <;> simp_all [some_eq_iff, -Option.some.injEq]

theorem hostCancelIter_some {l : Loop} {eff : AbsorbEffect} : hostCancelIter l eff s = some t ↔
    s.br.sess.isEnded = false ∧ s.br.stopped l = false ∧
      t = if s.cfg.ABSORB_ITER_CANCEL then absorbCancel l eff s else raiseLoop l .CANCELLED s := by
  unfold hostCancelIter
  cases s.br.sess.isEnded <;> cases s.br.stopped l <;> simp [-Option.some.injEq]
  cases s.cfg.ABSORB_ITER_CANCEL <;> simp [some_eq_iff, -Option.some.injEq]

theorem hostCancelSession_some : hostCancelSession s = some t ↔
    s.br.sess.isEnded = false ∧
      t = { s with br := {
        (s.br.stopIfRunning .outbound .SESSION_CANCELLED).stopIfRunning .inbound .SESSION_CANCELLED with
          first_err := some (s.br.firstErr .SESSION_CANCELLED)
          sess := .Ended (s.br.firstErr .SESSION_CANCELLED) } } := by
  unfold hostCancelSession
  cases s.br.sess.isEnded <;> simp [some_eq_iff, -Option.some.injEq]

theorem loseResidue_some : loseResidue s = some t ↔
    s.br.sess.isEnded = true ∧ t = { s with br := { s.br with hbuf := [] } } := by
  unfold loseResidue
  cases s.br.sess.isEnded <;> simp [some_eq_iff, -Option.some.injEq]

/-- No agent but the engine touches the configuration, the engine's registers, the stream position or the schedule. -/
theorem agentStep_frame {a : AgentStep} (h : agentStep a s = some t) :
    t.cfg = s.cfg ∧ t.eng = s.eng ∧ t.pos = s.pos ∧ t.env = s.env := by
  cases a <;> simp only [agentStep] at h
  case outRecv k => obtain ⟨_, _, rfl⟩ := outRecv_some.1 h; simp
  case outNetError => obtain ⟨_, _, rfl⟩ := outNetError_some.1 h; simp
  case outNetEof => obtain ⟨_, _, rfl⟩ := outNetEof_some.1 h; simp
  case outWrite => obtain ⟨_, _, rfl⟩ := outWrite_some.1 h; simp
  case outFlush => obtain ⟨_, _, rfl⟩ := outFlush_some.1 h; simp
  case outIfaceError => obtain ⟨_, rfl⟩ := outIfaceError_some.1 h; simp
  case inRead k => obtain ⟨_, _, rfl⟩ := inRead_some.1 h; simp
  case inSend => obtain ⟨_, _, _, rfl⟩ := inSend_some.1 h; simp
  case inNetError => obtain ⟨_, _, rfl⟩ := inNetError_some.1 h; simp
  case inIfaceError => obtain ⟨_, rfl⟩ := inIfaceError_some.1 h; simp
  case xfer => obtain ⟨_, _, _, _, rfl⟩ := xfer_some.1 h; simp
  case sup => obtain ⟨_, ⟨_, _, rfl⟩ | ⟨_, _, rfl⟩⟩ := sup_some.1 h <;> simp [cancelSurvivor]
  case hostSend d => obtain ⟨_, rfl⟩ := hostSend_some.1 h; simp
  case hostClose => obtain ⟨_, rfl⟩ := hostClose_some.1 h; simp
  case hostBreak => obtain ⟨_, rfl⟩ := hostBreak_some.1 h; simp
  case hostCancelIter l eff =>
    obtain ⟨_, _, rfl⟩ := hostCancelIter_some.1 h
    split
    · cases eff <;> simp [absorbCancel]
    · simp
  case hostCancelSession => obtain ⟨_, rfl⟩ := hostCancelSession_some.1 h; simp
  case loseResidue => obtain ⟨_, rfl⟩ := loseResidue_some.1 h; simp

/-- A turn is the agent's step where enabled, and otherwise a wait. -/
theorem agentTurn_cases (a : AgentStep) (s : State) :
    (∃ t, agentStep a s = some t ∧ agentTurn a s = t) ∨ (agentStep a s = none ∧ agentTurn a s = s) := by
  unfold agentTurn
  cases h : agentStep a s with
  | none => right; simp
  | some t => left; exact ⟨t, rfl, rfl⟩

/-- A tick, with an admitted configuration. -/
theorem stepEvent_eng (ha : s.cfg.Admitted) (tdo : Bit) : stepEvent (.eng tdo) s = engStep (s.drawTdo tdo) := by
  rw [stepEvent, if_pos ha]

/-- An agent's turn, with an admitted configuration. -/
theorem stepEvent_agent (ha : s.cfg.Admitted) (a : AgentStep) : stepEvent (.agent a) s = .next (agentTurn a s) := by
  rw [stepEvent, if_pos ha]

/-- A reset event, with an admitted configuration. -/
theorem stepEvent_reset (ha : s.cfg.Admitted) (init : Signals) : stepEvent (.reset init) s = applyReset init s := by
  rw [stepEvent, if_pos ha]

/-- A launch event, with an admitted configuration. -/
theorem stepEvent_launch (ha : s.cfg.Admitted) : stepEvent .launch s = launchSession s := by
  rw [stepEvent, if_pos ha]

/-- An enabled agent step is what the agent's turn does. -/
theorem agentTurn_of_some {a : AgentStep} (h : agentStep a s = some t) : agentTurn a s = t := by
  rw [agentTurn, h, Option.getD_some]

/-- An agent whose step is not enabled waits. -/
theorem agentTurn_of_none {a : AgentStep} (h : agentStep a s = none) : agentTurn a s = s := by
  rw [agentTurn, h, Option.getD_none]

/-- What one event can do, said once. -/
theorem stepEvent_next {e : Event} (h : stepEvent e s = .next t) :
    s.cfg.Admitted ∧
      ((∃ tdo, e = .eng tdo ∧ engStep (s.drawTdo tdo) = .next t) ∨
       (∃ a, e = .agent a ∧ (agentStep a s = some t ∨ (agentStep a s = none ∧ t = s))) ∨
       (∃ init, e = .reset init ∧ s.br.sess.isEnded = true ∧ t = resetEngine init s) ∨
       (e = .launch ∧ LaunchPremise s ∧ t = { s with br := Bridge.atLaunch, net := Net.atLaunch })) := by
  unfold stepEvent at h
  split at h
  · refine ⟨‹_›, ?_⟩
    cases e with
    | eng tdo => exact .inl ⟨tdo, rfl, h⟩
    | agent a =>
      refine .inr (.inl ⟨a, rfl, ?_⟩)
      simp only [Host.Outcome.next.injEq] at h
      subst h
      rcases agentTurn_cases a s with ⟨u, hu, ht⟩ | ⟨hn, ht⟩
      · left; rw [hu, ht]
      · right; exact ⟨hn, ht⟩
    | reset init =>
      cases hs : s.br.sess <;> simp only [applyReset, hs, Host.Outcome.next.injEq, reduceCtorEq] at h
      exact .inr (.inr (.inl ⟨init, rfl, rfl, h.symm⟩))
    | launch =>
      simp only [launchSession] at h
      split at h
      · exact .inr (.inr (.inr ⟨rfl, ‹_›, by simpa using h.symm⟩))
      · cases h
  · cases h

end Sys2Proof.Machine
end

