-- ==== Sys2Proof/Laws/Cycle.lean ====
section
/-! SUPPORT. What an instruction and a tick can do, said once: provers cite these and do not unfold the meanings. -/

namespace Sys2Proof.Machine

open Sys2Proof

@[simp] theorem fetch_nil {s : State} (h : s.cmd_q = []) : s.fetch = none := by
  simp [State.fetch, decode, h]

theorem fetch_cons {s : State} {b : Byte} {q : List Byte} (h : s.cmd_q = b :: q) :
    s.fetch = some (decodeByte b) := by
  simp [State.fetch, decode, h]

theorem cmdHead_cons {s : State} {b : Byte} {q : List Byte} (h : s.cmd_q = b :: q) : s.cmdHead = some b := by
  simp [State.cmdHead, h]

@[simp] theorem cmdHead_nil {s : State} (h : s.cmd_q = []) : s.cmdHead = none := by
  simp [State.cmdHead, h]

/-- Every instruction does on the state what its class does on the registers and channels. -/
theorem exec_eq_apply (i : Instr) (s : State) :
    exec i s = .next (s.apply (classAct s.cfg s.eng s.smpSpace s.env.tdo_i i.cls)) := by
  cases i
  case read =>
    by_cases h : s.smpSpace = true <;>
      simp [exec, execRead, h, classAct, Instr.cls, State.apply, cmdPop, smpPush]
  case unknown b => simp [exec, execUnknown, classAct, Instr.cls, State.apply]
  all_goals simp [exec, execDrv0, execDrv1, execDrv2, execDrv3, execDrv4, execDrv5, execDrv6, execDrv7, execRst0,
    execRst1, execRst2, execRst3, execBlinkOn, execBlinkOff, execSleepLong, execSleepShort, execQuit, drive, resetPair,
    setBlink, sleep, armTimer, cmdPop, classAct, Instr.cls, State.apply]

theorem apply_cfg (s : State) (o) : (s.apply o).cfg = s.cfg := rfl
theorem apply_br (s : State) (o) : (s.apply o).br = s.br := rfl
theorem apply_net (s : State) (o) : (s.apply o).net = s.net := rfl
theorem apply_env (s : State) (o) : (s.apply o).env = s.env := rfl
theorem apply_eng (s : State) (o) : (s.apply o).eng = o.1 := rfl

/-- A tick always answers a next state, in one of three ways. -/
theorem engStep_cases (s : State) :
    (s.eng.timer ≠ 0 ∧ engStep s = .next (timerDecr s)) ∨
    (s.eng.timer = 0 ∧ s.fetch = none ∧ engStep s = .next s) ∨
    (s.eng.timer = 0 ∧ ∃ i, s.fetch = some i ∧ engStep s = exec i s) := by
  by_cases h : s.eng.timer = 0
  · right
    cases hf : s.fetch with
    | none => left; simp [engStep, h, hf]
    | some i => right; exact ⟨h, i, rfl, by simp [engStep, h, hf]⟩
  · left; exact ⟨h, by simp [engStep, h]⟩

/-- The class act keeps the registers, pops or pushes only as its class says: a READ without space and an unknown byte
do nothing. -/
theorem classAct_pop (c : Config) (r : EngState) (space : Bool) (tdo : Bit) (k : CmdClass) :
    (classAct c r space tdo k).2.1 = true ↔ k ≠ .unknown ∧ (k = .read → space = true) := by
  cases k <;> simp [classAct]
  cases space <;> simp

end Sys2Proof.Machine
end

