-- ==== Sys2Proof/Laws/Decode.lean ====
section
/-! SUPPORT. The decoder on one byte agrees with the class function; 256 cases, decided once. -/

namespace Sys2Proof

/-- The class of the decoded instruction is the class of the byte. -/
theorem decodeByte_cls : ∀ b : Byte, (decodeByte b).cls = cls b := by decide

namespace Machine

/-- The fetched instruction's class is that of the head byte. -/
theorem fetch_cls {s : State} {i : Instr} (h : s.fetch = some i) :
    ∃ b q, s.cmd_q = b :: q ∧ i = decodeByte b ∧ i.cls = cls b := by
  cases hq : s.cmd_q with
  | nil => simp [fetch_nil hq] at h
  | cons b q =>
    rw [fetch_cons hq, Option.some.injEq] at h
    exact ⟨b, q, rfl, h.symm, h ▸ decodeByte_cls b⟩

end Machine

end Sys2Proof
end

