-- ==== Sys2Proof/Laws/PerInstr.lean ====
section
/-! SUPPORT. Facts about every instruction as syntax, one lemma per constructor. -/

namespace Sys2Proof.Laws

open Sys2Proof

/-- Every instruction is one byte, whose class by the field rules (R54, R56 to R58) is the class the opcode map gives the
instruction (R55). -/
def OneByteOfItsClass.Statement (i : Instr) : Prop :=
  i.wf = true → ∃ b, encode i = [b] ∧ cls b = i.cls

theorem OneByteOfItsClass.drv0 : OneByteOfItsClass.Statement .drv0 := fun _ => ⟨_, rfl, by decide⟩
theorem OneByteOfItsClass.drv1 : OneByteOfItsClass.Statement .drv1 := fun _ => ⟨_, rfl, by decide⟩
theorem OneByteOfItsClass.drv2 : OneByteOfItsClass.Statement .drv2 := fun _ => ⟨_, rfl, by decide⟩
theorem OneByteOfItsClass.drv3 : OneByteOfItsClass.Statement .drv3 := fun _ => ⟨_, rfl, by decide⟩
theorem OneByteOfItsClass.drv4 : OneByteOfItsClass.Statement .drv4 := fun _ => ⟨_, rfl, by decide⟩
theorem OneByteOfItsClass.drv5 : OneByteOfItsClass.Statement .drv5 := fun _ => ⟨_, rfl, by decide⟩
theorem OneByteOfItsClass.drv6 : OneByteOfItsClass.Statement .drv6 := fun _ => ⟨_, rfl, by decide⟩
theorem OneByteOfItsClass.drv7 : OneByteOfItsClass.Statement .drv7 := fun _ => ⟨_, rfl, by decide⟩
theorem OneByteOfItsClass.rst0 : OneByteOfItsClass.Statement .rst0 := fun _ => ⟨_, rfl, by decide⟩
theorem OneByteOfItsClass.rst1 : OneByteOfItsClass.Statement .rst1 := fun _ => ⟨_, rfl, by decide⟩
theorem OneByteOfItsClass.rst2 : OneByteOfItsClass.Statement .rst2 := fun _ => ⟨_, rfl, by decide⟩
theorem OneByteOfItsClass.rst3 : OneByteOfItsClass.Statement .rst3 := fun _ => ⟨_, rfl, by decide⟩
theorem OneByteOfItsClass.read : OneByteOfItsClass.Statement .read := fun _ => ⟨_, rfl, by decide⟩
theorem OneByteOfItsClass.blinkOn : OneByteOfItsClass.Statement .blinkOn := fun _ => ⟨_, rfl, by decide⟩
theorem OneByteOfItsClass.blinkOff : OneByteOfItsClass.Statement .blinkOff := fun _ => ⟨_, rfl, by decide⟩
theorem OneByteOfItsClass.sleepLong : OneByteOfItsClass.Statement .sleepLong := fun _ => ⟨_, rfl, by decide⟩
theorem OneByteOfItsClass.sleepShort : OneByteOfItsClass.Statement .sleepShort := fun _ => ⟨_, rfl, by decide⟩
theorem OneByteOfItsClass.quit : OneByteOfItsClass.Statement .quit := fun _ => ⟨_, rfl, by decide⟩

/-- The bytes outside the opcode map are exactly those of class UNKNOWN. -/
theorem cls_unknown_of_undefined : ∀ b : Byte, b ∉ definedBytes → cls b = .unknown := by decide

theorem OneByteOfItsClass.unknown (b : Byte) : OneByteOfItsClass.Statement (.unknown b) := fun h =>
  ⟨b, rfl, cls_unknown_of_undefined b (by simpa [Instr.wf] using h)⟩

end Sys2Proof.Laws
end

