-- ==== Sys2Proof/Tests/Slice0.lean ====
section
/-! SUPPORT. Tests on fixed values, with expected results worked out from the spec's vectors (`95_test_vectors.md`), and
for each obligation with hypotheses a witness that meets them. -/

namespace Sys2Proof.Tests

open Sys2Proof Sys2Proof.Machine

/-! ## Helpers -/

/-- `INIT = 0`, the vectors' choice of test input. -/
def zeros : Signals := ⟨0#1, 0#1, 0#1, 0#1, 0#1, 0#1⟩

/-- The launch premise with `P = 3`, `U = 2`, depths 16 and chunk maxima 8. -/
def base : State := State.launch Config.atReset zeros

/-- `base` with bytes present in `cmd_q`. -/
def cmds (q : List Byte) : State := { base with cmd_q := q }

/-- The state with another timer. -/
def timed (n : Nat) (s : State) : State := { s with eng := { s.eng with timer := n } }

/-- The state with a sample channel that holds one byte and is full. -/
def full (s : State) : State := { s with cfg := { s.cfg with SMP_DEPTH := 1 }, smp_q := [0x31#8] }

/-- The state with another bridge. -/
def bridged (b : Bridge) : State := { base with br := b }

/-- The next state of an outcome. -/
def nextState : Host.Outcome State Fault Refusal → Option State
  | .next t => some t
  | .fault _ => none
  | .refused _ => none

/-- The refusal of an outcome. -/
def refusal : Host.Outcome State Fault Refusal → Option Refusal
  | .next _ => none
  | .fault _ => none
  | .refused r => some r

/-- The state after one tick with a draw of `tdo`. -/
def tick (tdo : Bit) (s : State) : Option State := nextState (stepEvent (.eng tdo) s)

/-- The vectors' signal tuple `(tck, tms, tdi)` with the timer. -/
def jtag (s : State) : Bit × Bit × Bit × Nat := (s.eng.tck, s.eng.tms, s.eng.tdi, s.eng.timer)

/-! ## Well-formedness: the one check, and a term it refuses -/

theorem test_unknown_with_a_defined_byte_is_ill_formed : ∀ b ∈ definedBytes, (Instr.unknown b).wf = false := by decide
theorem test_unknown_with_an_undefined_byte_is_well_formed : (Instr.unknown 0x58#8).wf = true := by decide

/-! ## Decoding: every constructor, its word written out from the opcode map -/

theorem test_decode_drv0 : decode [0b00110000#8] = .ok (.drv0, []) := rfl
theorem test_decode_drv1 : decode [0b00110001#8] = .ok (.drv1, []) := rfl
theorem test_decode_drv2 : decode [0b00110010#8] = .ok (.drv2, []) := rfl
theorem test_decode_drv3 : decode [0b00110011#8] = .ok (.drv3, []) := rfl
theorem test_decode_drv4 : decode [0b00110100#8] = .ok (.drv4, []) := rfl
theorem test_decode_drv5 : decode [0b00110101#8] = .ok (.drv5, []) := rfl
theorem test_decode_drv6 : decode [0b00110110#8] = .ok (.drv6, []) := rfl
theorem test_decode_drv7 : decode [0b00110111#8] = .ok (.drv7, []) := rfl
theorem test_decode_rst0 : decode [0b01110010#8] = .ok (.rst0, []) := rfl
theorem test_decode_rst1 : decode [0b01110011#8] = .ok (.rst1, []) := rfl
theorem test_decode_rst2 : decode [0b01110100#8] = .ok (.rst2, []) := rfl
theorem test_decode_rst3 : decode [0b01110101#8] = .ok (.rst3, []) := rfl
theorem test_decode_read : decode [0b01010010#8] = .ok (.read, []) := rfl
theorem test_decode_blinkOn : decode [0b01000010#8] = .ok (.blinkOn, []) := rfl
theorem test_decode_blinkOff : decode [0b01100010#8] = .ok (.blinkOff, []) := rfl
theorem test_decode_sleepLong : decode [0b01011010#8] = .ok (.sleepLong, []) := rfl
theorem test_decode_sleepShort : decode [0b01111010#8] = .ok (.sleepShort, []) := rfl
theorem test_decode_quit : decode [0b01010001#8] = .ok (.quit, []) := rfl
theorem test_decode_unknown : decode [0b01011000#8] = .ok (.unknown 0x58#8, []) := rfl
/-- L2.0: bit 7 is not masked. -/
theorem test_decode_bit7 : decode [0b10110000#8] = .ok (.unknown 0xB0#8, []) := rfl
theorem test_decode_nothing : decode [] = .error .noByte := rfl
theorem test_decodeTableWord : decodeTableWord 8 0x74 = some .rst2 ∧ decodeTableWord 8 0 = some (.unknown 0#8) ∧
    decodeTableWord 0 0 = none := by decide
/-- L2.0: the operands of the reset group. -/
theorem test_cls_reset : cls 0x72#8 = .rst 0#2 ∧ cls 0x73#8 = .rst 1#2 ∧ cls 0x74#8 = .rst 2#2 ∧
    cls 0x75#8 = .rst 3#2 ∧ cls 0x71#8 = .unknown ∧ cls 0x76#8 = .unknown := by decide

/-! ## One tick (L2.1, L2.2 to L2.7) -/

/-- L2.1 T1. -/
theorem test_timer_counts_down : (tick 0#1 (timed 2 (cmds [0x31#8]))).map jtag = some (0#1, 0#1, 0#1, 1) := by decide
/-- L2.1 T2: a nonzero timer hides an unknown byte. -/
theorem test_timer_hides_unknown : (timed 1 (cmds [0x58#8])).tickCond = .TIMER_WAIT := by decide
/-- L2.1 T3. -/
theorem test_idle : (tick 1#1 base).map (·.eng) = some base.eng := by decide
theorem test_drv0 : (tick 0#1 (cmds [0x30#8])).map jtag = some (0#1, 0#1, 0#1, 2) := by decide
theorem test_drv1 : (tick 0#1 (cmds [0x31#8])).map jtag = some (0#1, 0#1, 1#1, 2) := by decide
theorem test_drv2 : (tick 0#1 (cmds [0x32#8])).map jtag = some (0#1, 1#1, 0#1, 2) := by decide
theorem test_drv3 : (tick 0#1 (cmds [0x33#8])).map jtag = some (0#1, 1#1, 1#1, 2) := by decide
theorem test_drv4 : (tick 0#1 (cmds [0x34#8])).map jtag = some (1#1, 0#1, 0#1, 2) := by decide
/-- L2.1 T4: a full `smp_q` does not stall a drive. -/
theorem test_drv5 : (tick 0#1 (full (cmds [0x35#8]))).map jtag = some (1#1, 0#1, 1#1, 2) := by decide
/-- L1.1. -/
theorem test_drv6 : (tick 0#1 (cmds [0x36#8, 0x52#8])).map (fun t => (jtag t, t.cmd_q)) =
    some ((1#1, 1#1, 0#1, 2), [0x52#8]) := by decide
theorem test_drv7 : (tick 0#1 (cmds [0x37#8])).map jtag = some (1#1, 1#1, 1#1, 2) := by decide
/-- RS-1, with both bits set before. -/
theorem test_rst0 : (tick 0#1 { cmds [0x72#8] with eng := EngState.ofInit ⟨0#1, 0#1, 0#1, 1#1, 1#1, 0#1⟩ }).map
    (fun t => (t.eng.srst_o, t.eng.trst_o, t.eng.timer)) = some (0#1, 0#1, 0) := by decide
/-- RS-2. -/
theorem test_rst1 : (tick 0#1 (cmds [0x73#8])).map (fun t => (t.eng.srst_o, t.eng.trst_o)) = some (1#1, 0#1) := by
  decide
/-- RS-3: `rv = b - 'r'`, not `b[1:0]`. -/
theorem test_rst2 : (tick 0#1 (cmds [0x74#8])).map (fun t => (t.eng.srst_o, t.eng.trst_o)) = some (0#1, 1#1) := by
  decide
/-- L2.1 T8. -/
theorem test_rst3 : (tick 0#1 (full (cmds [0x75#8]))).map (fun t => (t.eng.srst_o, t.eng.trst_o, t.cmd_q)) =
    some (1#1, 1#1, []) := by decide
/-- L2.1 T5. -/
theorem test_read : (tick 1#1 (cmds [0x52#8])).map (fun t => (t.smp_q, t.cmd_q)) = some ([0x31#8], []) := by decide
/-- S-4: the head blocks, and so does what is behind it. -/
theorem test_read_full : (tick 0#1 (full (cmds [0x52#8, 0x31#8]))).map (fun t => (t.smp_q, t.cmd_q, t.eng.tdi)) =
    some ([0x31#8], [0x52#8, 0x31#8], 0#1) := by decide
/-- BL-2: set, not toggled. -/
theorem test_blinkOn : (tick 0#1 { cmds [0x42#8] with eng := EngState.ofInit ⟨0#1, 0#1, 0#1, 0#1, 0#1, 1#1⟩ }).map
    (·.eng.blink) = some 1#1 := by decide
/-- BL-4, its first command. -/
theorem test_blinkOff : (tick 0#1 { cmds [0x62#8] with eng := EngState.ofInit ⟨0#1, 0#1, 0#1, 0#1, 0#1, 1#1⟩ }).map
    (fun t => (t.eng.blink, t.eng.timer)) = some (0#1, 0) := by decide
/-- L2.1 T10. -/
theorem test_sleepLong : (tick 0#1 (cmds [0x5A#8])).map (fun t => (t.eng.timer, t.cmd_q)) = some (1999, []) := by decide
/-- L2.1 T11. -/
theorem test_sleepShort : (tick 0#1 (cmds [0x7A#8])).map (fun t => (t.eng.timer, t.cmd_q)) = some (1, []) := by decide
/-- SL-2: with `U = 1` no delay. -/
theorem test_sleepShort_U1 : (tick 0#1 { cmds [0x7A#8] with cfg := { Config.atReset with U := 1 } }).map
    (·.eng.timer) = some 0 := by decide
/-- L2.1 T12: only the byte goes. -/
theorem test_quit : (tick 0#1 (cmds [0x51#8, 0x31#8])).map (fun t => (t.eng, t.cmd_q, t.br.sess)) =
    some (base.eng, [0x31#8], .Active) := by decide
/-- L2.1 T13. -/
theorem test_unknown : (tick 1#1 (cmds [0x58#8, 0x31#8, 0x52#8])).map (fun t => (t.eng, t.cmd_q, t.smp_q)) =
    some (base.eng, [0x58#8, 0x31#8, 0x52#8], []) := by decide

/-! ## The ports -/

/-- R33 and R34: polarity, and a missing pin. -/
theorem test_pins : ({ cmds [] with
      cfg := { Config.atReset with INV_TRST := true, HAS_SRST := false }
      eng := EngState.ofInit ⟨1#1, 0#1, 0#1, 0#1, 1#1, 1#1⟩ } : State).pins =
    ⟨1#1, 0#1, 0#1, some 1#1, some 0#1, none, none, some 1#1⟩ := by decide
theorem test_handshake : ((cmds [0x52#8]).drawTdo 1#1).smp_data = some 0x31#8 ∧
    (cmds [0x52#8]).cmd_en = 1#1 ∧ (full (cmds [0x52#8])).cmd_en = 0#1 := by decide

/-! ## The bridge (L2.8) -/

/-- BR1. -/
theorem test_recv : (outRecv 2 { base with net := { Net.atLaunch with net_rx := [0x31#8, 0x52#8, 0x30#8] } }).map
    (fun t => (t.br.out_st, t.net.net_rx)) = some (.Write [0x31#8, 0x52#8], [0x30#8]) := by decide
/-- BR2: no end of stream while bytes are there. -/
theorem test_no_eof : outNetEof { base with net := ⟨[0x31#8], true, false, []⟩ } = none := by decide
/-- BR4. -/
theorem test_eof : (outNetEof { base with net := ⟨[], true, false, []⟩ }).map (·.br) =
    some ⟨.Stopped .NET_EOF, .Read, [], some .NET_EOF, .Ending⟩ := by decide
/-- BR5. -/
theorem test_write : (outWrite (bridged ⟨.Write [0x31#8, 0x52#8], .Read, [0x30#8], none, .Active⟩)).map
    (fun t => (t.br.hbuf, t.br.out_st)) = some ([0x30#8, 0x31#8, 0x52#8], .Flush) := by decide
/-- BR6. -/
theorem test_flush_waits : outFlush (bridged ⟨.Flush, .Read, [0x52#8], none, .Active⟩) = none := by decide
/-- BR8. -/
theorem test_xfer : (xfer (bridged ⟨.Write [0x30#8], .Read, [0x31#8, 0x52#8], none, .Active⟩)).map
    (fun t => (t.cmd_q, t.br.hbuf)) = some ([0x31#8], [0x52#8]) := by decide
/-- BR7. -/
theorem test_xfer_full : xfer { bridged ⟨.Recv, .Read, [0x31#8], none, .Active⟩ with
    cmd_q := [0x30#8], cfg := { Config.atReset with CMD_DEPTH := 1 } } = none := by decide
/-- BR9. -/
theorem test_inRead : (inRead 2 { base with smp_q := [0x31#8, 0x30#8, 0x31#8] }).map
    (fun t => (t.br.in_st, t.smp_q)) = some (.Send [0x31#8, 0x30#8], [0x31#8]) := by decide
/-- BR11: the first reason stays. -/
theorem test_second_error : (inNetError { bridged ⟨.Stopped .NET_EOF, .Send [0x31#8], [], some .NET_EOF, .Ending⟩ with
      net := ⟨[], true, true, []⟩ }).map (fun t => (t.br, t.net.net_tx)) =
    some (⟨.Stopped .NET_EOF, .Stopped .NET_ERROR, [], some .NET_EOF, .Ended .NET_EOF⟩, []) := by decide
/-- BR12 and BR13. -/
theorem test_restart : ((hostCancelIter .inbound .restart (bridged ⟨.Write [0x31#8], .Send [0x30#8], [], none, .Active⟩)).map
      (·.br) = some ⟨.Write [0x31#8], .Read, [], none, .Active⟩) ∧
    ((hostCancelIter .outbound .restart (bridged ⟨.Write [0x31#8], .Send [0x30#8], [], none, .Active⟩)).map
      (·.br) = some ⟨.Recv, .Send [0x30#8], [], none, .Active⟩) := by decide
/-- BR16. -/
theorem test_cancelled : (hostCancelIter .outbound .keep
      { base with cfg := { Config.atReset with ABSORB_ITER_CANCEL := false } }).map (·.br) =
    some ⟨.Stopped .CANCELLED, .Read, [], some .CANCELLED, .Ending⟩ := by decide
/-- BR17. -/
theorem test_sup : (sup (bridged ⟨.Stopped .NET_EOF, .Read, [], some .NET_EOF, .Ending⟩)).map (·.br) =
    some ⟨.Stopped .NET_EOF, .Stopped .CANCELLED_BY_SUP, [], some .NET_EOF, .Ended .NET_EOF⟩ := by decide
/-- BR18. -/
theorem test_cancel_session : (hostCancelSession base).map (·.br) =
    some ⟨.Stopped .SESSION_CANCELLED, .Stopped .SESSION_CANCELLED, [], some .SESSION_CANCELLED,
      .Ended .SESSION_CANCELLED⟩ := by decide
/-- BR19. -/
theorem test_cancel_ending : (hostCancelSession
      (bridged ⟨.Stopped .NET_ERROR, .Send [0x31#8], [], some .NET_ERROR, .Ending⟩)).map (·.br) =
    some ⟨.Stopped .NET_ERROR, .Stopped .SESSION_CANCELLED, [], some .NET_ERROR, .Ended .NET_ERROR⟩ := by decide

/-! ## The step from reset -/

theorem test_reset_inv : Inv State.reset := by decide
theorem test_step_from_reset_idles : (nextState (step State.reset)).map (fun t => (t.pos, t.cmd_q, t.eng.timer, t.env.tick)) =
    some (0, [], 0, 1) := rfl
theorem test_placed_word_runs : (nextState (step (State.reset.withFetchWord 8 0x36))).map
    (fun t => (jtag t, t.cmd_q, t.pos)) = some ((1#1, 1#1, 0#1, 2), [], 1) := rfl
theorem test_core : Sys2Proof.core.step = step ∧ Sys2Proof.core.reset = State.reset := ⟨rfl, rfl⟩

/-! ## Witnesses: for each obligation with hypotheses, data that meet them all, each clause at its boundary -/

theorem witness_DecodeOfEncodeIsTheInstruction :
    Instr.drv0.wf = true ∧ Instr.quit.wf = true ∧ (Instr.unknown 0x38#8).wf = true ∧ (Instr.unknown 0xFF#8).wf = true := by
  decide

theorem witness_UndefinedBytesAreUnknown : BitVec.getLsbD 0x80#8 7 = true ∧ BitVec.getLsbD 0xFF#8 7 = true := by decide

theorem witness_OperandFieldsOfTheDriveAndResetGroups :
    cls 0x30#8 = .drv 0#3 ∧ cls 0x37#8 = .drv 7#3 ∧ cls 0x2F#8 = .unknown ∧ cls 0x38#8 = .unknown ∧
    cls 0x72#8 = .rst 0#2 ∧ cls 0x75#8 = .rst 3#2 ∧ cls 0x71#8 = .unknown ∧ cls 0x76#8 = .unknown := by decide

/-- Both clauses: a scheduled tick, and the empty schedule. -/
theorem witness_AStepRunsTheDecodedInstruction :
    (∃ s : State, s.cfg.Admitted ∧ s.eng.timer = 0 ∧ decode s.cmd_q = .ok (.drv5, []) ∧
      s.env.script = [.eng 1#1, .agent .xfer]) ∧
    (∃ s : State, s.cfg.Admitted ∧ s.eng.timer = 0 ∧ decode s.cmd_q = .ok (.unknown 0xB0#8, [0x31#8]) ∧
      s.env.script = []) :=
  ⟨⟨{ cmds [0x35#8] with env := ⟨[.eng 1#1, .agent .xfer], 0#1, 0⟩ }, by decide, rfl, rfl, rfl⟩,
    ⟨cmds [0xB0#8, 0x31#8], by decide, rfl, rfl, rfl⟩⟩

theorem witness_APlacedWordRunsNext : base.cfg.Admitted ∧ decodeTableWord 8 0x30 = some .drv0 ∧
    decodeTableWord 8 0xFF = some (.unknown 0xFF#8) := by decide

/-- The first clause, and each refusal of the third. -/
theorem witness_TheBlockNeverHalts :
    (base.cfg.Admitted ∧ ({ base with env := ⟨[.agent .xfer], 0#1, 0⟩ } : State).nextEvent.isOutside = false) ∧
    refusal (step { base with cfg := { Config.atReset with P := 0 } }) = some .configNotAdmitted ∧
    refusal (step { base with env := ⟨[.reset zeros], 0#1, 0⟩ }) = some .resetDuringSession ∧
    refusal (step { base with env := ⟨[.launch], 0#1, 0⟩ }) = some .launchPremiseFails :=
  ⟨by decide, rfl, rfl, rfl⟩

/-- Each of the seven cases. -/
theorem witness_AnInadmissibleConfigurationIsRefused :
    ({ Config.atReset with P := 0 } : Config).P = 0 ∧ ({ Config.atReset with U := 0 } : Config).U = 0 ∧
    ({ Config.atReset with CMD_DEPTH := 0 } : Config).CMD_DEPTH = 0 ∧
    ({ Config.atReset with SMP_DEPTH := 0 } : Config).SMP_DEPTH = 0 ∧
    ({ Config.atReset with RECV_MAX := 0 } : Config).RECV_MAX = 0 ∧
    ({ Config.atReset with READ_MAX := 0 } : Config).READ_MAX = 0 ∧
    2 ^ ({ Config.atReset with TW := 10 } : Config).TW < max Config.atReset.P (1000 * Config.atReset.U) := by decide

/-- A timer of 2, and the boundary 1 with a byte behind it. -/
theorem witness_ANonzeroTimerOnlyCountsDown :
    (timed 2 base).eng.timer ≠ 0 ∧ (timed 2 base).eng.timer ≠ 1 ∧ (timed 1 (cmds [0x31#8])).eng.timer = 1 ∧
    (timed 1 (cmds [0x31#8])).fetch = some .drv1 ∧ (∃ t, engStep (timed 1 (cmds [0x31#8])) = .next t) ∧
    (∃ t, engStep (timed 2 base) = .next t) :=
  ⟨by decide, by decide, rfl, rfl, ⟨_, rfl⟩, ⟨_, rfl⟩⟩

theorem witness_AnEmptyChannelIdles : base.eng.timer = 0 ∧ base.cmd_q = [] := ⟨rfl, rfl⟩

/-- Consumed: not READ, READ with space. Not consumed: READ without space, unknown. -/
theorem witness_TheHeadByteIsConsumedInTwoCases :
    ((cmds [0x51#8]).eng.timer = 0 ∧ (cmds [0x51#8]).cmd_q = [0x51#8] ∧ cls 0x51#8 ≠ .read ∧ cls 0x51#8 ≠ .unknown) ∧
    (cls 0x52#8 = .read ∧ (cmds [0x52#8]).smpSpace = true) ∧
    (cls 0x52#8 = .read ∧ (full (cmds [0x52#8])).smpSpace = false) ∧ cls 0x53#8 = .unknown := by decide

/-- Two states that differ in the bridge, the network, the rest of the channels and `pos`. -/
theorem witness_TheEngineDependsOnlyOnItsInputs :
    ∃ s u : State, s.cfg = u.cfg ∧ s.eng = u.eng ∧ s.cmd_q.head? = u.cmd_q.head? ∧ s.smpSpace = u.smpSpace ∧
      s.br ≠ u.br ∧ s.cmd_q ≠ u.cmd_q ∧ s.smp_q ≠ u.smp_q ∧ s.pos ≠ u.pos :=
  ⟨cmds [0x52#8], { bridged ⟨.Flush, .Stopped .IFACE_ERROR, [1#8], some .IFACE_ERROR, .Ending⟩ with
    cmd_q := [0x52#8, 0x31#8], smp_q := [0x30#8], pos := 7 }, by decide⟩

/-- Each of the five conditions occurs in a tick. -/
theorem witness_TickConditionsSayWhatTheTickDoes :
    ((timed 1 base).tickCond = .TIMER_WAIT ∧ base.tickCond = .IDLE ∧ (cmds [0x52#8]).tickCond = .RUN ∧
      (full (cmds [0x52#8])).tickCond = .BACKPRESSURE ∧ (cmds [0x58#8]).tickCond = .WEDGED) ∧
    (∃ t, engStep (timed 1 base) = .next t) ∧ (∃ t, engStep base = .next t) ∧ (∃ t, engStep (cmds [0x52#8]) = .next t) ∧
    (∃ t, engStep (full (cmds [0x52#8])) = .next t) ∧ (∃ t, engStep (cmds [0x58#8]) = .next t) :=
  ⟨by decide, ⟨_, rfl⟩, ⟨_, rfl⟩, ⟨_, rfl⟩, ⟨_, rfl⟩, ⟨_, rfl⟩⟩

theorem witness_ResetCommandsSetBothResetSignals :
    (cmds [0x75#8, 0x72#8]).eng.timer = 0 ∧ (cmds [0x75#8, 0x72#8]).cmd_q = 0x75#8 :: 0x72#8 :: [] := ⟨rfl, rfl⟩

/-- Space for one more, and a channel of one byte. -/
theorem witness_ReadPushesTheSample :
    ({ cmds [0x52#8] with smp_q := List.replicate 15 0x30#8 } : State).smp_q.length < Config.atReset.SMP_DEPTH ∧
    (∃ s t u : State, s.cfg.SMP_DEPTH = 1 ∧ s.smp_q = [] ∧ exec .read s = .next t ∧
      agentStep (.inRead 1) t = some u) :=
  ⟨by decide, { cmds [0x52#8] with cfg := { Config.atReset with SMP_DEPTH := 1 } }, _, _, rfl, rfl, rfl, rfl⟩

theorem witness_ReadWithoutSpaceStalls : (full (cmds [0x52#8])).cfg.SMP_DEPTH ≤ (full (cmds [0x52#8])).smp_q.length ∧
    (full (cmds [0x52#8])).eng.timer = 0 ∧ (full (cmds [0x52#8])).cmd_q.head? = some 0x52#8 := by decide

theorem witness_BlinkCommandsSetTheIndicatorBit :
    (cmds [0x42#8, 0x42#8]).eng.timer = 0 ∧ (cmds [0x42#8, 0x42#8]).cmd_q = 0x42#8 :: 0x42#8 :: [] := ⟨rfl, rfl⟩

theorem witness_SleepCommandsArmTheTimer : ({ Config.atReset with U := 1 } : Config).U = 1 := rfl

theorem witness_QuitOnlyConsumesItsByte :
    ((cmds [0x51#8, 0x31#8]).eng.timer = 0 ∧ (cmds [0x51#8, 0x31#8]).cmd_q = 0x51#8 :: [0x31#8] ∧
      (cmds [0x51#8, 0x31#8]).cmd_q = 0x51#8 :: 0x31#8 :: []) ∧
    decode [0x31#8] = .ok (.drv1, List.tail [0x31#8]) := ⟨by decide, rfl⟩

theorem witness_AnUnknownByteDoesNothing :
    Wedged (cmds [0x71#8]) ∧ (cmds [0x58#8, 0x31#8, 0x52#8]).cfg.Admitted ∧
    (cmds [0x58#8, 0x31#8, 0x52#8]).eng.timer = 0 ∧
    (cmds [0x58#8, 0x31#8, 0x52#8]).cmd_q = [0x58#8, 0x31#8, 0x52#8] :=
  ⟨⟨rfl, 0x71#8, rfl, by decide⟩, by decide, rfl, rfl⟩

theorem witness_InstructionsTouchOnlyTheEngineAndItsChannels : Instr.quit ≠ .read ∧ Instr.read = .read := by decide

/-- The drive clause, the reset clause, a tick that is neither, and a step of another agent. -/
theorem witness_SignalGroupsHaveTheirOwnWriters :
    (Instr.drv7.cls = .drv 7#3 ∧ ∃ t, exec .drv7 base = .next t) ∧
    (Instr.rst2.cls = .rst 2#2 ∧ ∃ t, exec .rst2 base = .next t) ∧
    ((∀ i v, (cmds [0x42#8]).fetch = some i → i.cls = .drv v → (cmds [0x42#8]).eng.timer ≠ 0) ∧
      (∀ i rv, (cmds [0x42#8]).fetch = some i → i.cls = .rst rv → (cmds [0x42#8]).eng.timer ≠ 0) ∧
      ∃ t, engStep (cmds [0x42#8]) = .next t) ∧
    (Event.isTick (.agent .xfer) = false ∧ Event.isReset (.agent .xfer) = false ∧
      ∃ t, stepEvent (.agent .xfer) (bridged ⟨.Recv, .Read, [0x37#8], none, .Active⟩) = .next t) := by
  refine ⟨⟨rfl, _, rfl⟩, ⟨rfl, _, rfl⟩, ⟨fun i v h hc => ?_, fun i v h hc => ?_, _, rfl⟩, rfl, rfl, _, rfl⟩
  · obtain rfl : Instr.blinkOn = i := by simpa using (show some Instr.blinkOn = some i from h)
    cases hc
  · obtain rfl : Instr.blinkOn = i := by simpa using (show some Instr.blinkOn = some i from h)
    cases hc

theorem witness_BlinkIsOnlyForTheIndicator :
    (Instr.drv0 ≠ .blinkOn ∧ Instr.drv0 ≠ .blinkOff ∧ ∃ t, exec .drv0 base = .next t) ∧
    (Event.isTick .launch = false ∧ Event.isReset .launch = false ∧
      ∃ t, stepEvent .launch (bridged ⟨.Stopped .NET_EOF, .Stopped .CANCELLED_BY_SUP, [], some .NET_EOF,
        .Ended .NET_EOF⟩) = .next t) ∧
    (∃ t, stepEvent (.eng 0#1) (cmds [0x31#8]) = .next t) :=
  ⟨⟨by decide, by decide, _, rfl⟩, ⟨rfl, rfl, _, rfl⟩, _, rfl⟩

/-- The timer at the top of its range, a decrement, each writer, a non-writer, an empty channel, another agent. -/
theorem witness_TheTimerHasOnlyItsWriters :
    ((timed 1999 base).cfg.Admitted ∧ (timed 1999 base).eng.timer ≤ (timed 1999 base).cfg.TMAX - 1 ∧
      (timed 1999 base).eng.timer ≠ 0) ∧ (∃ t, engStep (timed 1999 base) = .next t) ∧
    ((cmds [0x30#8]).eng.timer = 0 ∧ (cmds [0x30#8]).fetch = some .drv0 ∧ Instr.drv0.cls = .drv 0#3 ∧
      ∃ t, engStep (cmds [0x30#8]) = .next t) ∧
    ((cmds [0x5A#8]).fetch = some .sleepLong ∧ ∃ t, engStep (cmds [0x5A#8]) = .next t) ∧
    ((cmds [0x7A#8]).fetch = some .sleepShort ∧ ∃ t, engStep (cmds [0x7A#8]) = .next t) ∧
    ((cmds [0x75#8]).fetch = some .rst3 ∧ (∀ v, Instr.rst3.cls ≠ .drv v) ∧ ∃ t, engStep (cmds [0x75#8]) = .next t) ∧
    (base.fetch = none ∧ ∃ t, engStep base = .next t) ∧
    (Event.isTick (.agent .xfer) = false ∧ Event.isReset (.agent .xfer) = false ∧
      ∃ t, stepEvent (.agent .xfer) (timed 5 base) = .next t) :=
  ⟨by decide, ⟨_, rfl⟩, ⟨rfl, rfl, rfl, _, rfl⟩, ⟨rfl, _, rfl⟩, ⟨rfl, _, rfl⟩,
    ⟨rfl, (fun _ h => by cases h), _, rfl⟩, ⟨rfl, _, rfl⟩, rfl, rfl, _, rfl⟩

/-- L1.1: `"6R"` with `P = 3`, the transport and both ticks of the gap between them. -/
theorem witness_CommandsAreConsumedGapTicksApart :
    (cmds [0x36#8, 0x52#8]).cfg.Admitted ∧ (cmds [0x36#8, 0x52#8]).eng.timer = 0 ∧
    (cmds [0x36#8, 0x52#8]).fetch = some .drv6 ∧ gap (cmds [0x36#8, 0x52#8]).cfg Instr.drv6.cls = some 3 ∧
    (∀ e ∈ [Event.eng 0#1, .agent .xfer, .eng 1#1], e.isReset = false) ∧
    ticks [.eng 0#1, .agent .xfer, .eng 1#1] = 3 - 1 ∧
    (∃ t, runEvents [.eng 0#1, .eng 0#1, .agent .xfer, .eng 1#1] (cmds [0x36#8, 0x52#8]) = .next t ∧
      t.fetch = some .read) :=
  ⟨by decide, rfl, rfl, rfl, by decide, rfl, _, rfl, rfl⟩

theorem witness_AKnownHeadIsConsumedWhenTheTimerRunsOut :
    (timed 2 (cmds [0x52#8])).cfg.Admitted ∧ (timed 2 (cmds [0x52#8])).cmd_q = 0x52#8 :: [] ∧ cls 0x52#8 ≠ .unknown ∧
    (timed 2 (cmds [0x52#8])).smpSpace = true ∧ [0#1, 1#1, (0#1 : Bit)].length = (timed 2 (cmds [0x52#8])).eng.timer + 1 := by
  decide

theorem witness_AWedgeIsPermanent : Wedged (cmds [0x58#8]) ∧
    (∀ e ∈ [Event.eng 1#1, .agent (.hostSend [0x31#8]), .agent (.outRecv 1), .agent .outWrite, .agent .xfer],
      e.isReset = false) ∧
    (∃ t, runEvents [.eng 1#1, .agent (.hostSend [0x31#8]), .agent (.outRecv 1), .agent .outWrite, .agent .xfer]
      (cmds [0x58#8]) = .next t ∧ t.cmd_q = [0x58#8, 0x31#8]) :=
  ⟨⟨rfl, 0x58#8, rfl, by decide⟩, by decide, _, rfl, rfl⟩

theorem witness_OnlyAReadOfTheInboundLoopEndsBackpressure :
    (full (cmds [0x52#8])).eng.timer = 0 ∧ (full (cmds [0x52#8])).cmd_q.head? = some 0x52#8 ∧
    (full (cmds [0x52#8])).smpSpace = false ∧
    (∀ e ∈ [Event.eng 1#1, .agent .inSend], e.isReset = false ∧ ∀ k, e ≠ .agent (.inRead k)) ∧
    (∃ t, runEvents [.eng 1#1, .agent .inSend] (full (cmds [0x52#8])) = .next t) :=
  ⟨rfl, rfl, by decide, by simp [Event.isReset], _, rfl⟩

theorem witness_TheInvariantHoldsAtLaunch : Config.atReset.Admitted ∧
    ({ P := 1, U := 1, TW := 10, CMD_DEPTH := 1, SMP_DEPTH := 1, RECV_MAX := 1, READ_MAX := 1, HAS_TRST := false,
       HAS_SRST := false, HAS_LED := false, ABSORB_ITER_CANCEL := false, INV_TRST := true, INV_SRST := true,
       INV_LED := true } : Config).Admitted := by decide

theorem witness_EveryStepKeepsTheInvariant : Inv { cmds [0x5A#8] with env := ⟨[.eng 0#1], 0#1, 0⟩ } ∧
    ∃ t, step { cmds [0x5A#8] with env := ⟨[.eng 0#1], 0#1, 0⟩ } = .next t ∧ t.eng.timer = t.cfg.TMAX - 1 :=
  ⟨by decide, _, rfl, rfl⟩

theorem witness_OnlyTheEngineHasItsRegisters :
    ∃ t, agentStep .xfer (bridged ⟨.Recv, .Read, [0x37#8], none, .Active⟩) = some t := ⟨_, rfl⟩

theorem witness_AFullChannelMakesItsWriterWait :
    (({ bridged ⟨.Recv, .Read, [0x31#8], none, .Active⟩ with
        cmd_q := List.replicate 16 0x30#8 } : State).cfg.CMD_DEPTH ≤ (List.replicate 16 0x30#8).length) ∧
    ((full (cmds [0x52#8])).cfg.SMP_DEPTH ≤ (full (cmds [0x52#8])).smp_q.length) ∧
    (∃ t, agentStep .xfer { bridged ⟨.Recv, .Read, [0x31#8], none, .Active⟩ with
        cmd_q := List.replicate 15 0x30#8 } = some t) ∧
    (∃ t, engStep (cmds [0x52#8]) = .next t ∧ t.smp_q ≠ (cmds [0x52#8]).smp_q) ∧
    ((bridged ⟨.Recv, .Read, [0x31#8], none, .Active⟩).br.hbuf = 0x31#8 :: [] ∧
      (List.replicate 15 0x30#8).length < Config.atReset.CMD_DEPTH) ∧
    (List.replicate 15 0x30#8).length < Config.atReset.SMP_DEPTH :=
  ⟨by decide, by decide, ⟨_, rfl⟩, ⟨_, rfl, by decide⟩, by decide, by decide⟩

/-- BR1: the least and the greatest chunk, and one beyond. -/
theorem witness_ReceiveTakesANonemptyPrefix :
    let s := { base with cfg := { Config.atReset with RECV_MAX := 2 }, net := ⟨[0x31#8, 0x52#8, 0x30#8], false, false, []⟩ }
    (agentStep (.outRecv 1) s).isSome = true ∧ (agentStep (.outRecv 2) s).isSome = true ∧
    agentStep (.outRecv 3) s = none ∧ agentStep (.outRecv 0) s = none := by decide

/-- BR3, BR4, and a waiting receive. -/
theorem witness_ReceiveFailsEndsOrWaits :
    (agentStep .outNetError { base with net := ⟨[0x31#8], false, true, []⟩ }).isSome = true ∧
    (agentStep .outNetEof { base with net := ⟨[], true, false, []⟩ }).isSome = true ∧
    (base.br.out_st = .Recv ∧ base.net.net_rx = [] ∧ base.net.net_closed = false ∧ base.net.net_broken = false ∧
      AgentStep.outNetEof.loop? = some .outbound) := by decide

/-- BR5, and BR6 before and after the transport's step. -/
theorem witness_WriteIsWholeAndFlushWaitsForDelivery :
    (agentStep .outWrite (bridged ⟨.Write [0x31#8], .Read, [], none, .Active⟩)).isSome = true ∧
    (agentStep .outFlush (bridged ⟨.Flush, .Read, [], none, .Active⟩)).isSome = true ∧
    agentStep .outFlush (bridged ⟨.Flush, .Read, [0x52#8], none, .Active⟩) = none := by decide

/-- BR7 and BR8. -/
theorem witness_TransportMovesOneByteInOrder :
    (agentStep .xfer { bridged ⟨.Recv, .Read, [0x31#8], none, .Active⟩ with
      cmd_q := List.replicate 15 0x30#8 }).isSome = true ∧
    agentStep .xfer { bridged ⟨.Recv, .Read, [0x31#8], none, .Active⟩ with cmd_q := List.replicate 16 0x30#8 } = none := by
  decide

/-- BR9: the least and the greatest chunk, and one beyond. -/
theorem witness_ReadOfSamplesTakesANonemptyPrefix :
    let s := { base with cfg := { Config.atReset with READ_MAX := 2 }, smp_q := [0x31#8, 0x30#8, 0x31#8] }
    (agentStep (.inRead 1) s).isSome = true ∧ (agentStep (.inRead 2) s).isSome = true ∧
    agentStep (.inRead 3) s = none ∧ agentStep (.inRead 0) s = none := by decide

/-- BR10, and the send of the same chunk over a sound transport. -/
theorem witness_SendDeliversWholeOrFails :
    (agentStep .inSend (bridged ⟨.Recv, .Send [0x31#8], [], none, .Active⟩)).isSome = true ∧
    (∃ t, agentStep .inNetError { bridged ⟨.Recv, .Send [0x31#8], [], none, .Active⟩ with
      net := ⟨[], false, true, []⟩ } = some t) ∧
    ({ bridged ⟨.Recv, .Send [0x31#8], [], none, .Active⟩ with
      net := ⟨[], false, true, []⟩ } : State).net.net_broken = true := ⟨by decide, ⟨_, rfl⟩, rfl⟩

theorem witness_InterfaceFailureAtWriteFlushAndRead :
    (agentStep .outIfaceError (bridged ⟨.Write [0x31#8], .Read, [], none, .Active⟩)).isSome = true ∧
    (agentStep .outIfaceError (bridged ⟨.Flush, .Read, [], none, .Active⟩)).isSome = true ∧
    agentStep .outIfaceError base = none ∧ (agentStep .inIfaceError base).isSome = true ∧
    agentStep .inIfaceError (bridged ⟨.Recv, .Send [0x31#8], [], none, .Active⟩) = none := by decide

/-- A first error of each loop in an active session, and a second error (BR11). -/
theorem witness_ALoopErrorStopsTheLoopAndKeepsTheFirstReason :
    (base.br.sess = .Active ∧ base.br.first_err = none ∧ base.br.out_st.isStopped = false ∧
      base.br.in_st.isStopped = false) ∧
    (raiseLoop .outbound .NET_EOF base).br = ⟨.Stopped .NET_EOF, .Read, [], some .NET_EOF, .Ending⟩ ∧
    (raiseLoop .inbound .IFACE_ERROR base).br = ⟨.Recv, .Stopped .IFACE_ERROR, [], some .IFACE_ERROR, .Ending⟩ ∧
    (raiseLoop .inbound .NET_ERROR (bridged ⟨.Stopped .NET_EOF, .Send [0x31#8], [], some .NET_EOF, .Ending⟩)).br =
      ⟨.Stopped .NET_EOF, .Stopped .NET_ERROR, [], some .NET_EOF, .Ended .NET_EOF⟩ := by decide

/-- Absorbed and not absorbed, at each loop. -/
theorem witness_IterationCancellationIsAbsorbedOrRaised :
    (base.br.sess.isEnded = false ∧ base.br.out_st.isStopped = false ∧ base.br.in_st.isStopped = false ∧
      base.cfg.ABSORB_ITER_CANCEL = true) ∧
    ({ base with cfg := { Config.atReset with ABSORB_ITER_CANCEL := false } } : State).cfg.ABSORB_ITER_CANCEL = false ∧
    (∃ t, agentStep (.hostCancelIter .outbound .restart)
      (bridged ⟨.Write [0x31#8], .Stopped .NET_ERROR, [], some .NET_ERROR, .Ending⟩) = some t) ∧
    (∃ t, agentStep (.hostCancelIter .inbound .keep)
      (bridged ⟨.Stopped .NET_EOF, .Read, [], some .NET_EOF, .Ending⟩) = some t) :=
  ⟨by decide, rfl, ⟨_, rfl⟩, _, rfl⟩

/-- Each survivor, and no step of the supervisor in an active session. -/
theorem witness_TheSupervisorStopsTheSurvivor :
    (∃ t, agentStep .sup (bridged ⟨.Recv, .Stopped .NET_ERROR, [], some .NET_ERROR, .Ending⟩) = some t) ∧
    (∃ t, agentStep .sup (bridged ⟨.Stopped .NET_EOF, .Read, [], some .NET_EOF, .Ending⟩) = some t) ∧
    agentStep .sup base = none := ⟨⟨_, rfl⟩, ⟨_, rfl⟩, rfl⟩

/-- BR18 and BR19. -/
theorem witness_SessionCancellationStopsBothLoops :
    (∃ t, agentStep .hostCancelSession base = some t ∧ base.br.out_st.isStopped = false ∧
      base.br.in_st.isStopped = false ∧ t.br.out_st.isStopped = true ∧ t.br.in_st.isStopped = true) ∧
    (∃ t, agentStep .hostCancelSession (bridged ⟨.Stopped .NET_ERROR, .Send [0x31#8], [], some .NET_ERROR, .Ending⟩) =
      some t) := ⟨⟨_, rfl, rfl, rfl, rfl, rfl⟩, _, rfl⟩

/-- An ended session, as teardown leaves it, with two bytes in `hbuf`. -/
def ended : State :=
  bridged ⟨.Stopped .NET_EOF, .Stopped .CANCELLED_BY_SUP, [0x31#8, 0x52#8], some .NET_EOF, .Ended .NET_EOF⟩

/-- BR20: the prefix of one byte, and the whole of `hbuf` into a channel it just fills. -/
theorem witness_TheResidueIsDeliveredOrLost :
    (∃ t, agentStep .loseResidue ended = some t) ∧
    (ended.cfg.Admitted ∧ ended.br.sess.isEnded = true ∧ ended.br.hbuf = [0x31#8] ++ [0x52#8] ∧
      ended.cmd_q.length + [0x31#8].length ≤ ended.cfg.CMD_DEPTH ∧ ended.br.hbuf = [0x31#8, 0x52#8] ++ [] ∧
      (List.replicate 14 0x30#8).length + [0x31#8, 0x52#8].length ≤ ended.cfg.CMD_DEPTH) := ⟨⟨_, rfl⟩, by decide⟩

theorem witness_HostStepsTouchOnlyTheEndpoint :
    (agentStep (.hostSend [0x31#8]) base).isSome = true ∧ agentStep (.hostSend []) base = none ∧
    (agentStep .hostClose base).isSome = true ∧ (agentStep .hostBreak base).isSome = true ∧
    Event.eng 0#1 ≠ .launch ∧
    (∃ t, stepEvent (.eng 0#1) { base with net := ⟨[], true, true, []⟩ } = .next t) :=
  ⟨by decide, by decide, by decide, by decide, by decide, _, rfl⟩

/-- BR12 and BR13: a cancellation of each loop, and a step of each. -/
theorem witness_TheLoopsAreIsolated :
    (∃ t, agentStep (.hostCancelIter .inbound .restart) (bridged ⟨.Write [0x31#8], .Send [0x30#8], [], none, .Active⟩) =
      some t) ∧ (AgentStep.hostCancelIter .inbound .restart).target? = some .inbound ∧
    (∃ t, agentStep (.hostCancelIter .outbound .restart)
      (bridged ⟨.Write [0x31#8], .Send [0x30#8], [], none, .Active⟩) = some t) ∧
    (AgentStep.hostCancelIter .outbound .restart).target? = some .outbound ∧
    (∃ t, agentStep .outWrite (bridged ⟨.Write [0x31#8], .Send [0x30#8], [], none, .Active⟩) = some t) ∧
    AgentStep.outWrite.loop? = some .outbound ∧
    (∃ t, agentStep .inSend (bridged ⟨.Write [0x31#8], .Send [0x30#8], [], none, .Active⟩) = some t) ∧
    AgentStep.inSend.loop? = some .inbound :=
  ⟨⟨_, rfl⟩, rfl, ⟨_, rfl⟩, rfl, ⟨_, rfl⟩, rfl, ⟨_, rfl⟩, rfl⟩

/-- An ended session, in a tick. -/
theorem witness_TheEndOfASessionIsFinal :
    Inv ended ∧ Event.eng 1#1 ≠ .launch ∧ ended.br.sess = .Ended .NET_EOF ∧ ended.br.first_err = some .NET_EOF ∧
    ended.br.out_st = .Stopped .NET_EOF ∧ ended.br.in_st = .Stopped .CANCELLED_BY_SUP ∧
    (∃ t, stepEvent (.eng 1#1) ended = .next t) := ⟨by decide, by decide, rfl, rfl, rfl, rfl, _, rfl⟩

/-- A lossy run: a chunk of two bytes is lost to a restart, the next two relayed. -/
def lossyEvents : List Event :=
  [.agent (.hostSend [0x30#8, 0x34#8, 0x52#8, 0x51#8]), .agent (.outRecv 2),
    .agent (.hostCancelIter .outbound .restart), .agent (.outRecv 2), .agent .outWrite, .agent .xfer, .eng 1#1]

theorem witness_NothingIsDuplicatedOrReordered :
    (∀ e ∈ lossyEvents, e.isOutside = false) ∧
    (∃ t h, runHistory lossyEvents (State.launch Config.atReset zeros) History.empty = some (t, h) ∧
      h.consumed = [0x52#8] ∧ h.pushed = [0x31#8] ∧ t.pendingCmds = [0x51#8]) := ⟨by decide, _, _, rfl, rfl, rfl, rfl⟩

/-- A lossless run: `"RQ"`, relayed as far as the client. -/
def losslessEvents : List Event :=
  [.agent (.hostSend [0x52#8, 0x51#8]), .agent (.outRecv 2), .agent .outWrite, .agent .xfer, .eng 1#1,
    .agent (.inRead 1), .agent .inSend]

theorem witness_ALosslessRunRelaysEveryByte :
    (∀ e ∈ losslessEvents, e.lossless = true) ∧
    (∃ t h, runHistory losslessEvents (State.launch Config.atReset zeros) History.empty = some (t, h) ∧
      h.consumed = [0x52#8] ∧ t.net.net_tx = [0x31#8]) := ⟨by decide, _, _, rfl, rfl, rfl⟩

/-- A history with a lost chunk that agrees with a state in which a READ is next, and its tick; and one where nothing was
lost. -/
theorem witness_EveryStepKeepsTheRelay :
    (Event.isOutside (.eng 1#1) = false ∧ RelayInv (cmds [0x52#8]) ⟨[0x30#8, 0x34#8, 0x52#8], [], []⟩ ∧
      ∃ t, stepEvent (.eng 1#1) (cmds [0x52#8]) = .next t ∧ t.smp_q = [0x31#8]) ∧
    (Event.lossless (.eng 1#1) = true ∧ LosslessRelayInv (cmds [0x52#8]) ⟨[0x52#8], [], []⟩) :=
  ⟨⟨rfl, by decide, _, rfl, rfl⟩, rfl, by decide⟩

/-- The state that idles on from `s`, `n` ticks with `tdo = 0` later. -/
def idle (s : State) (n : Nat) : State := { s with env := { s.env with tdo_i := 0#1, tick := s.env.tick + n } }

theorem idle_step (s : State) (n : Nat) (ha : s.cfg.Admitted) (ht : s.eng.timer = 0) (hq : s.cmd_q = []) :
    stepEvent (.eng 0#1) (idle s n) = .next (idle s (n + 1)) := by
  rw [stepEvent_eng (by exact ha)]
  have hf : ((idle s n).drawTdo 0#1).fetch = none := fetch_nil hq
  have h0 : ((idle s n).drawTdo 0#1).eng.timer = 0 := ht
  simp only [engStep, h0, hf, ne_eq, not_true_eq_false, if_false]
  simp [idle, State.drawTdo, Nat.add_assoc]

/-- In a state with nothing under way none of the steps that R124 forces is enabled, unless the supervisor's. -/
theorem quiet_disabled {s : State} (a : AgentStep) (ho : s.br.out_st = .Recv ∨ s.br.out_st.isStopped = true)
    (hi : s.br.in_st = .Read ∨ s.br.in_st.isStopped = true) (hh : s.br.hbuf = []) (hr : s.net.net_rx = [])
    (hs : s.smp_q = []) (he : s.br.sess ≠ .Ending)
    (hf : a = .xfer ∨ a = .sup ∨ a = .outWrite ∨ a = .outFlush ∨ (∃ k, a = .outRecv k) ∨ (∃ k, a = .inRead k) ∨
      a = .inSend) : ¬ a.enabledIn s := by
  intro hen
  obtain ⟨t, ht⟩ := Option.isSome_iff_exists.1 hen
  rcases hf with rfl | rfl | rfl | rfl | ⟨k, rfl⟩ | ⟨k, rfl⟩ | rfl <;> simp only [agentStep] at ht
  · obtain ⟨b, q, h, _⟩ := xfer_some.1 ht; simp [hh] at h
  · exact he (sup_some.1 ht).1
  · obtain ⟨c, h, _⟩ := outWrite_some.1 ht; simp [h, OutSt.isStopped] at ho
  · obtain ⟨h, _⟩ := outFlush_some.1 ht; simp [h, OutSt.isStopped] at ho
  · obtain ⟨_, ⟨h1, h2⟩, _⟩ := outRecv_some.1 ht
    simp only [hr, List.length_nil] at h2
    omega
  · obtain ⟨_, ⟨h1, h2⟩, _⟩ := inRead_some.1 ht
    simp only [hs, List.length_nil] at h2
    omega
  · obtain ⟨c, h, _⟩ := inSend_some.1 ht; simp [h, InSt.isStopped] at hi

/-- A class of steps of which none is enabled from some point on is treated fairly. -/
theorem weaklyFair_of_quiet {r : Run} {A : AgentStep → Prop} (N : Nat)
    (h : ∀ n, N ≤ n → ∀ a, A a → ¬ a.enabledIn (r.st n)) : r.weaklyFair A := fun n hn =>
  have ⟨a, hA, he⟩ := hn (max n N) (Nat.le_max_left _ _)
  absurd he (h _ (Nat.le_max_right _ _) a hA)

/-- A run that only ticks from `N` on, with nothing under way, is fair, to the client too. -/
theorem fair_of_quiet {r : Run} (N : Nat) (hev : ∀ n, N ≤ n → r.ev n = .eng 0#1)
    (hq : ∀ n, N ≤ n → ∀ a : AgentStep, (a = .xfer ∨ a = .sup ∨ a = .outWrite ∨ a = .outFlush ∨ (∃ k, a = .outRecv k) ∨
      (∃ k, a = .inRead k) ∨ a = .inSend) → ¬ a.enabledIn (r.st n)) : r.Fair ∧ r.ClientReads :=
  ⟨{ eng := fun n => ⟨max n N, Nat.le_max_left _ _, by rw [hev _ (Nat.le_max_right _ _)]; rfl⟩
     xfer := weaklyFair_of_quiet N fun n hn a ha => hq n hn a (.inl ha)
     sup := weaklyFair_of_quiet N fun n hn a ha => hq n hn a (.inr (.inl ha))
     write := weaklyFair_of_quiet N fun n hn a ha => hq n hn a (.inr (.inr (.inl ha)))
     flush := weaklyFair_of_quiet N fun n hn a ha => hq n hn a (.inr (.inr (.inr (.inl ha))))
     recv := weaklyFair_of_quiet N fun n hn a ha => hq n hn a (.inr (.inr (.inr (.inr (.inl ha)))))
     read := weaklyFair_of_quiet N fun n hn a ha => hq n hn a (.inr (.inr (.inr (.inr (.inr (.inl ha)))))) },
    weaklyFair_of_quiet N fun n hn a ha => hq n hn a (.inr (.inr (.inr (.inr (.inr (.inr ha))))))⟩

/-- A failed session (BR17) before and after its supervisor's step. -/
def failed : State := bridged ⟨.Stopped .NET_EOF, .Read, [], some .NET_EOF, .Ending⟩
def stopped : State :=
  bridged ⟨.Stopped .NET_EOF, .Stopped .CANCELLED_BY_SUP, [], some .NET_EOF, .Ended .NET_EOF⟩

/-- The supervisor's step, and then ticks for ever. -/
def failedRun : Run where
  st n := match n with
    | 0 => failed
    | m + 1 => idle stopped m
  ev n := match n with
    | 0 => .agent .sup
    | _ + 1 => .eng 0#1
  step_ok n := match n with
    | 0 => rfl
    | m + 1 => idle_step stopped m (by decide) rfl rfl

theorem witness_AFairRunEndsAFailedSession :
    failedRun.Fair ∧ (∀ k, (failedRun.ev k).isOutside = false) ∧ Inv (failedRun.st 0) ∧
      (failedRun.st 0).br.sess = .Ending := by
  refine ⟨(fair_of_quiet 1 (fun n hn => ?_) fun n hn a ha => ?_).1, fun k => ?_, by decide, rfl⟩
  · obtain ⟨m, rfl⟩ := Nat.exists_eq_add_of_le' hn; rfl
  · obtain ⟨m, rfl⟩ := Nat.exists_eq_add_of_le' hn
    refine quiet_disabled a (.inr rfl) (.inr rfl) rfl rfl rfl (fun h => ?_) ha
    cases h
  · cases k <;> rfl

/-- The end of `deliveredRun`: one READ consumed, its sample at the client. -/
def delivered : State :=
  { base with pos := 1, net := ⟨[], false, false, [0x31#8]⟩, env := ⟨[], 1#1, 1⟩ }

/-- One READ at the head, its tick, the inbound loop's read and send, and then ticks for ever. -/
def deliveredRun : Run where
  st n := match n with
    | 0 => cmds [0x52#8]
    | 1 => { base with pos := 1, smp_q := [0x31#8], env := ⟨[], 1#1, 1⟩ }
    | 2 => { base with pos := 1, br := { base.br with in_st := .Send [0x31#8] }, env := ⟨[], 1#1, 1⟩ }
    | 3 => delivered
    | m + 4 => idle delivered (m + 1)
  ev n := match n with
    | 0 => .eng 1#1
    | 1 => .agent (.inRead 1)
    | 2 => .agent .inSend
    | _ + 3 => .eng 0#1
  step_ok n := match n with
    | 0 => rfl
    | 1 => rfl
    | 2 => rfl
    | 3 => rfl
    | m + 4 => idle_step delivered (m + 1) (by decide) rfl rfl

theorem witness_AFairLosslessRunDeliversEverything :
    deliveredRun.Fair ∧ deliveredRun.ClientReads ∧ Inv (deliveredRun.st 0) ∧ (deliveredRun.st 0).br.sess = .Active ∧
    (∀ n, (deliveredRun.ev n).lossless = true) ∧ (∀ n, ¬ Wedged (deliveredRun.st n)) ∧
    (∀ n, (deliveredRun.st n).net.net_broken = false) := by
  have hfair := fair_of_quiet (r := deliveredRun) 4 (fun n hn => ?_) fun n hn a ha => ?_
  · refine ⟨hfair.1, hfair.2, by decide, rfl, fun n => ?_, fun n => ?_, fun n => ?_⟩
    · match n with
      | 0 => rfl
      | 1 => rfl
      | 2 => rfl
      | _ + 3 => rfl
    · match n with
      | 0 =>
        rintro ⟨_, b, hb, hc⟩
        obtain rfl : 0x52#8 = b := by simpa using (show some 0x52#8 = some b from hb)
        revert hc; decide
      | 1 => rintro ⟨_, b, hb, _⟩; cases hb
      | 2 => rintro ⟨_, b, hb, _⟩; cases hb
      | 3 => rintro ⟨_, b, hb, _⟩; cases hb
      | _ + 4 => rintro ⟨_, b, hb, _⟩; cases hb
    · match n with
      | 0 => rfl
      | 1 => rfl
      | 2 => rfl
      | 3 => rfl
      | _ + 4 => rfl
  · obtain ⟨m, rfl⟩ := Nat.exists_eq_add_of_le' hn; rfl
  · obtain ⟨m, rfl⟩ := Nat.exists_eq_add_of_le' hn
    refine quiet_disabled a (.inl rfl) (.inl rfl) rfl rfl rfl (fun h => ?_) ha
    cases h

/-- An idle and a wedged run that is over, and one that READ keeps waiting. -/
theorem witness_ARunThatIsOverStaysOver :
    (Inv stopped ∧ Over stopped ∧ Event.isOutside (.eng 0#1) = false ∧ ∃ t, stepEvent (.eng 0#1) stopped = .next t) ∧
    (Inv { stopped with cmd_q := [0x58#8] } ∧ Over { stopped with cmd_q := [0x58#8] }) ∧
    (Inv { stopped with cmd_q := [0x52#8], smp_q := List.replicate 16 0x30#8 } ∧
      Over { stopped with cmd_q := [0x52#8], smp_q := List.replicate 16 0x30#8 }) :=
  ⟨⟨by decide, by decide, rfl, _, rfl⟩, by decide, by decide⟩

/-- A reset after the session, and one within it. -/
theorem witness_ResetOutsideASessionRestoresTheEngine :
    ended.cfg.Admitted ∧ ended.br.sess.isEnded = true ∧ base.cfg.Admitted ∧ base.br.sess.isEnded = false := by decide

theorem witness_ASessionStartsFromTheLaunchPremise :
    stopped.cfg.Admitted ∧ stopped.br.sess.isEnded = true ∧ stopped.br.hbuf = [] := by decide

/-- The same state without its pins. -/
theorem witness_PinsShowTheRegisters :
    ∃ (t : State) (c : Config), exec .rst1 base = .next t ∧ c.P = base.cfg.P ∧ c.U = base.cfg.U ∧
      c.SMP_DEPTH = base.cfg.SMP_DEPTH ∧ c.HAS_SRST ≠ base.cfg.HAS_SRST :=
  ⟨_, { Config.atReset with HAS_SRST := false }, rfl, by decide⟩

/-- A tick that consumes and pushes, one that only consumes, one that does neither. -/
theorem witness_HandshakePortsReportTheTick :
    ((cmds [0x52#8]).cmd_en = 1#1 ∧ (cmds [0x52#8]).smp_en = 1#1 ∧ (cmds [0x51#8]).cmd_en = 1#1 ∧
      (cmds [0x51#8]).smp_en ≠ 1#1 ∧ (cmds [0x58#8]).cmd_en ≠ 1#1) ∧
    (∃ t, engStep (cmds [0x52#8]) = .next t) ∧ (∃ t, engStep (cmds [0x51#8]) = .next t) ∧
    (∃ t, engStep (cmds [0x58#8]) = .next t) := ⟨by decide, ⟨_, rfl⟩, ⟨_, rfl⟩, _, rfl⟩

end Sys2Proof.Tests
end

