-- ==== Sys2Proof/Proofs/StateOwnership.lean ====
section
/-! SUPPORT. Who writes and who reads the engine's registers (R20, R22, R35): the other agents neither read nor write
them, `blink` has no reader among the steps, and the timer has three arming classes beside the decrement. -/

namespace Sys2Proof.Machine

open Sys2Proof

/-! ### The other agents and the engine's registers -/

section OtherAgents
variable {s t : State}

/-- A restart reads no register: with other registers it does the same (R35). -/
theorem restartLoop_withEng (l : Loop) (s : State) (r : EngState) :
    restartLoop l { s with eng := r } = { restartLoop l s with eng := r } := by
  cases l with
  | outbound => cases h : s.br.out_st <;> simp only [restartLoop, h]
  | inbound => cases h : s.br.in_st <;> simp only [restartLoop, h]

/-- The effect of an iteration cancellation reads no register. -/
theorem absorbCancel_withEng (l : Loop) (eff : AbsorbEffect) (s : State) (r : EngState) :
    absorbCancel l eff { s with eng := r } = { absorbCancel l eff s with eng := r } := by
  cases eff with
  | keep => rfl
  | restart => exact restartLoop_withEng l s r

/-- A step an agent takes, it takes with any other registers too, with the same effect. -/
theorem agentStep_withEng_some {a : AgentStep} (r : EngState) (h : agentStep a s = some t) :
    agentStep a { s with eng := r } = some { t with eng := r } := by
  cases a <;> simp only [agentStep] at h ⊢
  case outRecv k => obtain ⟨hst, hk, rfl⟩ := outRecv_some.1 h; exact outRecv_some.2 ⟨hst, hk, rfl⟩
  case outNetError => obtain ⟨hst, hb, rfl⟩ := outNetError_some.1 h; exact outNetError_some.2 ⟨hst, hb, rfl⟩
  case outNetEof => obtain ⟨hst, hc, rfl⟩ := outNetEof_some.1 h; exact outNetEof_some.2 ⟨hst, hc, rfl⟩
  case outWrite => obtain ⟨c, hst, rfl⟩ := outWrite_some.1 h; exact outWrite_some.2 ⟨c, hst, rfl⟩
  case outFlush => obtain ⟨hst, hq, rfl⟩ := outFlush_some.1 h; exact outFlush_some.2 ⟨hst, hq, rfl⟩
  case outIfaceError => obtain ⟨hst, rfl⟩ := outIfaceError_some.1 h; exact outIfaceError_some.2 ⟨hst, rfl⟩
  case inRead k => obtain ⟨hst, hk, rfl⟩ := inRead_some.1 h; exact inRead_some.2 ⟨hst, hk, rfl⟩
  case inSend => obtain ⟨c, hst, hb, rfl⟩ := inSend_some.1 h; exact inSend_some.2 ⟨c, hst, hb, rfl⟩
  case inNetError => obtain ⟨hst, hb, rfl⟩ := inNetError_some.1 h; exact inNetError_some.2 ⟨hst, hb, rfl⟩
  case inIfaceError => obtain ⟨hst, rfl⟩ := inIfaceError_some.1 h; exact inIfaceError_some.2 ⟨hst, rfl⟩
  case xfer => obtain ⟨b, q, hq, hl, rfl⟩ := xfer_some.1 h; exact xfer_some.2 ⟨b, q, hq, hl, rfl⟩
  case sup =>
    obtain ⟨he, ⟨ho, hi, rfl⟩ | ⟨ho, hi, rfl⟩⟩ := sup_some.1 h
    · exact sup_some.2 ⟨he, .inl ⟨ho, hi, rfl⟩⟩
    · exact sup_some.2 ⟨he, .inr ⟨ho, hi, rfl⟩⟩
  case hostSend d => obtain ⟨hd, rfl⟩ := hostSend_some.1 h; exact hostSend_some.2 ⟨hd, rfl⟩
  case hostClose => obtain ⟨hc, rfl⟩ := hostClose_some.1 h; exact hostClose_some.2 ⟨hc, rfl⟩
  case hostBreak => obtain ⟨hb, rfl⟩ := hostBreak_some.1 h; exact hostBreak_some.2 ⟨hb, rfl⟩
  case hostCancelIter l eff =>
    obtain ⟨he, hl, rfl⟩ := hostCancelIter_some.1 h
    refine hostCancelIter_some.2 ⟨he, hl, ?_⟩
    split
    · exact (absorbCancel_withEng l eff s r).symm
    · rfl
  case hostCancelSession =>
    obtain ⟨he, rfl⟩ := hostCancelSession_some.1 h; exact hostCancelSession_some.2 ⟨he, rfl⟩
  case loseResidue => obtain ⟨he, rfl⟩ := loseResidue_some.1 h; exact loseResidue_some.2 ⟨he, rfl⟩

/-- A step that is not enabled is not enabled with other registers either: otherwise putting the old registers back
would enable it. -/
theorem agentStep_withEng_none {a : AgentStep} (r : EngState) (h : agentStep a s = none) :
    agentStep a { s with eng := r } = none := by
  cases hr : agentStep a { s with eng := r } with
  | none => rfl
  | some t =>
    have hback : agentStep a s = some { t with eng := s.eng } :=
      agentStep_withEng_some (s := { s with eng := r }) s.eng hr
    rw [h] at hback
    cases hback

/-- No other agent reads a register (R35). -/
theorem agentStep_withEng (a : AgentStep) (s : State) (r : EngState) :
    agentStep a { s with eng := r } = (agentStep a s).map fun t => { t with eng := r } := by
  cases h : agentStep a s with
  | none => exact agentStep_withEng_none r h
  | some t => exact agentStep_withEng_some r h

/-- An event that is no tick and no reset writes no register. -/
theorem stepEvent_keeps_eng {e : Event} (htick : e.isTick = false) (hreset : e.isReset = false)
    (h : stepEvent e s = .next t) : t.eng = s.eng := by
  obtain ⟨-, ⟨tdo, rfl, -⟩ | ⟨a, rfl, ha | ⟨-, rfl⟩⟩ | ⟨init, rfl, -, -⟩ | ⟨rfl, -, rfl⟩⟩ := stepEvent_next h
  · cases htick
  · obtain ⟨-, heng, -, -⟩ := agentStep_frame ha
    exact heng
  · rfl
  · cases hreset
  · rfl

end OtherAgents

/-! ### The registers after an instruction and after a tick -/

/-- The registers an instruction leaves are those of its class. -/
theorem exec_next_eng {i : Instr} {s t : State} (h : exec i s = .next t) :
    t.eng = (classAct s.cfg s.eng s.smpSpace s.env.tdo_i i.cls).1 := by
  rw [exec_eq_apply, Host.Outcome.next.injEq] at h
  rw [← h, apply_eng]

/-- READ writes no register, with space or without (R85, R86). -/
theorem classAct_read_eng (c : Config) (r : EngState) (space : Bool) (tdo : Bit) :
    (classAct c r space tdo .read).1 = r := by
  cases space <;> rfl

section Tick
variable {s : State}

/-- A tick that starts with a nonzero timer only counts down (R64). -/
theorem engStep_of_timer_ne_zero (h0 : s.eng.timer ≠ 0) : engStep s = .next (timerDecr s) := by
  rw [engStep, if_pos h0]

/-- A tick that starts with timer 0 and a byte at the head is that instruction. -/
theorem engStep_of_fetch {i : Instr} (h0 : s.eng.timer = 0) (hf : s.fetch = some i) : engStep s = exec i s := by
  simp [engStep, h0, hf]

/-- A tick that starts with timer 0 and no byte idles (R65). -/
theorem engStep_of_fetch_none (h0 : s.eng.timer = 0) (hf : s.fetch = none) : engStep s = .next s := by
  simp [engStep, h0, hf]

end Tick

/-! ### The indicator bit -/

section Blink

/-- Only the blink class writes `blink` (R20). -/
theorem classAct_blink_of_ne {k : CmdClass} (hk : ∀ x, k ≠ .blink x) (c : Config) (r : EngState) (space : Bool)
    (tdo : Bit) : (classAct c r space tdo k).1.blink = r.blink := by
  cases k with
  | blink x => exact absurd rfl (hk x)
  | read => rw [classAct_read_eng]
  | drv _ | rst _ | sleepLong | sleepShort | quit | unknown => rfl

/-- The instructions of the blink class are BLINK_ON and BLINK_OFF (R55). -/
theorem eq_blink_of_cls {i : Instr} {x : Bit} (h : i.cls = .blink x) : i = .blinkOn ∨ i = .blinkOff := by
  cases i <;> simp [Instr.cls] at h ⊢

/-- `s` with another value of the indicator bit. -/
def State.withBlink (x : Bit) (s : State) : State := { s with eng := { s.eng with blink := x } }

variable {s t : State} (x : Bit)

/-- No class reads `blink`: with another value it answers the same registers but for `blink`, the same pop and the same
push. -/
theorem classAct_withBlink (c : Config) (r : EngState) (space : Bool) (tdo : Bit) (k : CmdClass) :
    ∃ y, classAct c { r with blink := x } space tdo k =
      ({ (classAct c r space tdo k).1 with blink := y }, (classAct c r space tdo k).2) := by
  cases k with
  | blink x' => exact ⟨x', rfl⟩
  | read => exact ⟨x, by cases space <;> rfl⟩
  | drv _ | rst _ | sleepLong | sleepShort | quit | unknown => exact ⟨x, rfl⟩

/-- No instruction reads `blink`. -/
theorem exec_withBlink {i : Instr} (h : exec i s = .next t) :
    ∃ y, exec i (s.withBlink x) = .next (t.withBlink y) := by
  rw [exec_eq_apply, Host.Outcome.next.injEq] at h
  obtain ⟨y, hy⟩ := classAct_withBlink x s.cfg s.eng s.smpSpace s.env.tdo_i i.cls
  refine ⟨y, ?_⟩
  rw [exec_eq_apply, ← h]
  exact congrArg (fun o => Host.Outcome.next ((s.withBlink x).apply o)) hy

/-- No tick reads `blink`. -/
theorem engStep_withBlink (h : engStep s = .next t) :
    ∃ y, engStep (s.withBlink x) = .next (t.withBlink y) := by
  obtain ⟨hn, hs⟩ | ⟨h0, hf, hs⟩ | ⟨h0, i, hf, hs⟩ := engStep_cases s <;> rw [hs] at h
  · cases h
    exact ⟨x, engStep_of_timer_ne_zero (s := s.withBlink x) hn⟩
  · cases h
    exact ⟨x, engStep_of_fetch_none (s := s.withBlink x) h0 hf⟩
  · rw [engStep_of_fetch (s := s.withBlink x) h0 hf]
    exact exec_withBlink x h

/-- No event reads `blink`: with another value it answers the same state but for `blink` (R20). -/
theorem stepEvent_withBlink {e : Event} (h : stepEvent e s = .next t) :
    ∃ y, stepEvent e (s.withBlink x) = .next (t.withBlink y) := by
  obtain ⟨hadm, hcases⟩ := stepEvent_next h
  have hadm' : (s.withBlink x).cfg.Admitted := hadm
  obtain ⟨tdo, rfl, ht⟩ | ⟨a, rfl, ha | ⟨ha, rfl⟩⟩ | ⟨init, rfl, hend, rfl⟩ | ⟨rfl, hp, rfl⟩ := hcases
  · rw [stepEvent_eng hadm']
    exact engStep_withBlink x ht
  · obtain ⟨-, heng, -, -⟩ := agentStep_frame ha
    have ha' : agentStep a (s.withBlink x) = some (t.withBlink x) := by
      rw [State.withBlink, State.withBlink, heng]
      exact agentStep_withEng_some _ ha
    exact ⟨x, by rw [stepEvent_agent hadm', agentTurn_of_some ha']⟩
  · have ha' : agentStep a (t.withBlink x) = none := agentStep_withEng_none _ ha
    exact ⟨x, by rw [stepEvent_agent hadm', agentTurn_of_none ha']⟩
  · refine ⟨init.blink, ?_⟩
    rw [stepEvent_reset hadm']
    cases hs : s.br.sess with
    | Active | Ending => simp [hs, Sess.isEnded] at hend
    | Ended _ => simp only [applyReset, State.withBlink, hs]; rfl
  · exact ⟨x, by rw [stepEvent_launch hadm', launchSession, if_pos (show LaunchPremise (s.withBlink x) from hp)]; rfl⟩

end Blink

/-! ### The timer -/

section TimerWriters

/-- Each arm value lies in the timer's range (R22). -/
theorem arms_le_TMAX (c : Config) :
    driveArm c ≤ c.TMAX - 1 ∧ sleepLongArm c ≤ c.TMAX - 1 ∧ sleepShortArm c ≤ c.TMAX - 1 := by
  simp only [driveArm, sleepLongArm, sleepShortArm, Config.TMAX]
  omega

/-- A class that is neither drive nor sleep leaves the timer. -/
theorem classAct_timer_of_ne {k : CmdClass} (hd : ∀ v, k ≠ .drv v) (hl : k ≠ .sleepLong) (hs : k ≠ .sleepShort)
    (c : Config) (r : EngState) (space : Bool) (tdo : Bit) : (classAct c r space tdo k).1.timer = r.timer := by
  cases k with
  | drv v => exact absurd rfl (hd v)
  | sleepLong => exact absurd rfl hl
  | sleepShort => exact absurd rfl hs
  | read => rw [classAct_read_eng]
  | rst _ | blink _ | quit | unknown => rfl

/-- Every class keeps the timer's range. -/
theorem classAct_timer_le {c : Config} {r : EngState} (h : r.timer ≤ c.TMAX - 1) (space : Bool) (tdo : Bit)
    (k : CmdClass) : (classAct c r space tdo k).1.timer ≤ c.TMAX - 1 := by
  obtain ⟨hdrive, hlong, hshort⟩ := arms_le_TMAX c
  cases k with
  | drv _ => exact hdrive
  | sleepLong => exact hlong
  | sleepShort => exact hshort
  | read => rwa [classAct_read_eng]
  | rst _ | blink _ | quit | unknown => exact h

/-- SLEEP_LONG is the one instruction of its class (R55). -/
theorem cls_eq_sleepLong {i : Instr} : i.cls = .sleepLong ↔ i = .sleepLong := by
  cases i <;> simp [Instr.cls]

/-- SLEEP_SHORT is the one instruction of its class (R55). -/
theorem cls_eq_sleepShort {i : Instr} : i.cls = .sleepShort ↔ i = .sleepShort := by
  cases i <;> simp [Instr.cls]

variable {s t : State}

/-- A tick keeps the timer's range. -/
theorem engStep_timer_le (hle : s.eng.timer ≤ s.cfg.TMAX - 1) (h : engStep s = .next t) :
    t.eng.timer ≤ s.cfg.TMAX - 1 := by
  obtain ⟨-, hs⟩ | ⟨-, -, hs⟩ | ⟨-, i, -, hs⟩ := engStep_cases s <;> rw [hs] at h
  · cases h
    exact (Nat.sub_le _ _).trans hle
  · cases h
    exact hle
  · rw [exec_next_eng h]
    exact classAct_timer_le hle _ _ _

/-- A tick that starts with a nonzero timer decrements it (R64). -/
theorem engStep_timer_eq_pred (h0 : s.eng.timer ≠ 0) (h : engStep s = .next t) :
    t.eng.timer = s.eng.timer - 1 := by
  rw [engStep_of_timer_ne_zero h0] at h
  cases h
  rfl

/-- The timer after an instruction, by the instruction's class: three classes arm it, the others leave it (R22). -/
theorem exec_timer {i : Instr} (h : exec i s = .next t) :
    (∀ v, i.cls = .drv v → t.eng.timer = s.cfg.P - 1) ∧
    (i = .sleepLong → t.eng.timer = 1000 * s.cfg.U - 1) ∧
    (i = .sleepShort → t.eng.timer = s.cfg.U - 1) ∧
    ((∀ v, i.cls ≠ .drv v) → i ≠ .sleepLong → i ≠ .sleepShort → t.eng.timer = s.eng.timer) := by
  rw [exec_next_eng h]
  refine ⟨fun v hv => ?_, ?_, ?_, fun hd hl hs => ?_⟩
  · rw [hv]
    rfl
  · rintro rfl
    rfl
  · rintro rfl
    rfl
  · exact classAct_timer_of_ne hd (cls_eq_sleepLong.not.2 hl) (cls_eq_sleepShort.not.2 hs) _ _ _ _

end TimerWriters

/-! ### The obligations -/

/-- Settles O26: only the blink class writes `blink`, and no class, agent, reset or launch reads it. -/
theorem blinkIsOnlyForTheIndicator : Obligations.BlinkIsOnlyForTheIndicator := by
  refine ⟨fun i s t hon hoff h => ?_, fun e s t htick hreset h => ?_, fun e s t x h => ?_, fun s x => rfl⟩
  · have hcls : ∀ x, i.cls ≠ .blink x := fun x hx => (eq_blink_of_cls hx).elim hon hoff
    rw [exec_next_eng h, classAct_blink_of_ne hcls]
  · rw [stepEvent_keeps_eng htick hreset h]
  · exact stepEvent_withBlink x h

/-- Settles O27: the decrement and the three arming classes are the timer's only writers, each within its range. -/
theorem theTimerHasOnlyItsWriters : Obligations.TheTimerHasOnlyItsWriters := by
  refine ⟨fun s t _ hle h => engStep_timer_le hle h, fun s t h0 h => engStep_timer_eq_pred h0 h,
    fun s t h0 h => ⟨fun i hf => ?_, fun hf => ?_⟩, fun e s t htick hreset h => ?_⟩
  · rw [engStep_of_fetch h0 hf] at h
    have htimer := exec_timer h
    rwa [h0] at htimer
  · rw [engStep_of_fetch_none h0 hf] at h
    cases h
    exact h0
  · rw [stepEvent_keeps_eng htick hreset h]

/-- Settles O34: by the frame of the agent steps, and because none of their conditions or effects mentions a register. -/
theorem onlyTheEngineHasItsRegisters : Obligations.OnlyTheEngineHasItsRegisters := by
  refine fun a s => ⟨fun t h => ?_, agentStep_withEng a s⟩
  obtain ⟨hcfg, heng, hpos, henv⟩ := agentStep_frame h
  exact ⟨heng, hpos, hcfg, henv⟩

end Sys2Proof.Machine
end

