-- ==== Sys2Proof/Proofs/ChannelBackpressure.lean ====
section
/-! SUPPORT. The writers of the two bounded channels (R44): the transport into `cmd_q` and a READ into `smp_q` append one
byte where there is room, and change nothing where there is none. -/

namespace Sys2Proof.Machine

open Sys2Proof

variable {s t : State}

/-! ### The command channel and the transport -/

/-- The transport moves the next byte while there is room (R108). -/
theorem xfer_of_room {b : Byte} {rest : List Byte} (hbuf : s.br.hbuf = b :: rest)
    (hroom : s.cmd_q.length < s.cfg.CMD_DEPTH) :
    xfer s = some { s with cmd_q := s.cmd_q ++ [b], br := { s.br with hbuf := rest } } :=
  xfer_some.2 ⟨b, rest, hbuf, hroom, rfl⟩

/-- The transport has no step into a full channel (R44, R108). -/
theorem xfer_of_full (hfull : s.cfg.CMD_DEPTH ≤ s.cmd_q.length) : xfer s = none := by
  refine Option.eq_none_iff_forall_ne_some.2 fun t h => ?_
  obtain ⟨-, -, -, hroom, -⟩ := xfer_some.1 h
  exact hroom.not_ge hfull

/-! ### The sample channel and READ -/

theorem smpSpace_iff : s.smpSpace = true ↔ s.smp_q.length < s.cfg.SMP_DEPTH := decide_eq_true_iff

/-- A READ with space pushes this tick's sample and is consumed (R85). -/
theorem exec_read_of_room (hroom : s.smp_q.length < s.cfg.SMP_DEPTH) :
    exec .read s = .next (cmdPop (smpPush (sampleByte s.env.tdo_i) s)) :=
  if_pos (smpSpace_iff.2 hroom)

/-- A READ without space changes nothing (R86). -/
theorem exec_read_of_full (hfull : s.cfg.SMP_DEPTH ≤ s.smp_q.length) : exec .read s = .next s :=
  if_neg fun hspace => (smpSpace_iff.1 hspace).not_ge hfull

/-- Only READ pushes, only with space, and what it pushes is the sample (R85). -/
theorem classAct_push_eq_some {c : Config} {r : EngState} {space : Bool} {tdo : Bit} {k : CmdClass} {b : Byte} :
    (classAct c r space tdo k).2.2 = some b ↔ k = .read ∧ space = true ∧ sampleByte tdo = b := by
  cases k with
  | read => cases space <;> simp [classAct]
  | drv _ | rst _ | blink _ | sleepLong | sleepShort | quit | unknown => simp [classAct]

/-- What an instruction can do to the sample channel: nothing, or append this tick's sample where there is room. -/
theorem exec_smp_q {i : Instr} (h : exec i s = .next t) :
    t.smp_q = s.smp_q ∨
      (s.smp_q.length < s.cfg.SMP_DEPTH ∧ t.smp_q = s.smp_q ++ [sampleByte s.env.tdo_i]) := by
  rw [exec_eq_apply, Host.Outcome.next.injEq] at h
  subst h
  cases hpush : (classAct s.cfg s.eng s.smpSpace s.env.tdo_i i.cls).2.2 with
  | none => left; simp [State.apply, hpush]
  | some b =>
    obtain ⟨-, hspace, rfl⟩ := classAct_push_eq_some.1 hpush
    right; exact ⟨smpSpace_iff.1 hspace, by simp [State.apply, hpush]⟩

/-- What a tick can do to the sample channel: nothing, or append its sample where there is room. -/
theorem engStep_smp_q (h : engStep s = .next t) :
    t.smp_q = s.smp_q ∨
      (s.smp_q.length < s.cfg.SMP_DEPTH ∧ t.smp_q = s.smp_q ++ [sampleByte s.env.tdo_i]) := by
  obtain ⟨-, hs⟩ | ⟨-, -, hs⟩ | ⟨-, i, -, hs⟩ := engStep_cases s <;> rw [hs] at h
  · cases h
    exact .inl rfl
  · cases h
    exact .inl rfl
  · exact exec_smp_q h

/-! ### The obligation -/

/-- Settles O35: a full channel disables its writer, and with room the writer appends exactly one byte. -/
theorem aFullChannelMakesItsWriterWait : Obligations.AFullChannelMakesItsWriterWait := by
  refine ⟨fun s hadm hfull => ?_, fun s hfull => exec_read_of_full hfull, fun s t h => ?_, fun s t h hne => ?_,
    fun s b rest hbuf hroom => ⟨_, xfer_of_room hbuf hroom, rfl, rfl⟩,
    fun s hroom => ⟨_, exec_read_of_room hroom, rfl⟩⟩
  · rw [stepEvent_agent hadm, agentTurn_of_none (a := .xfer) (xfer_of_full hfull)]
  · obtain ⟨b, rest, -, hroom, rfl⟩ := xfer_some.1 h
    exact ⟨hroom, b, rfl⟩
  · obtain ⟨hroom, hpush⟩ := (engStep_smp_q h).resolve_left hne
    exact ⟨hroom, _, hpush⟩

end Sys2Proof.Machine
end

