-- ==== Sys2Proof/Proofs/Encoding.lean ====
section
/-! SUPPORT. Which bytes the opcode map leaves UNKNOWN (R59), and which bytes the drive and the reset group are, with
their operands (R56, R57). -/

namespace Sys2Proof.Machine

open Sys2Proof

/-! ### The UNKNOWN bytes -/

/-- No byte the opcode map lists is UNKNOWN (R55). -/
theorem cls_ne_unknown_of_mem : ∀ b ∈ definedBytes, cls b ≠ .unknown := by decide

theorem cls_eq_unknown_iff {b : Byte} : cls b = .unknown ↔ b ∉ definedBytes :=
  ⟨fun h hb => cls_ne_unknown_of_mem b hb h, Laws.cls_unknown_of_undefined b⟩

/-- The decoder's rows are keyed by the listed bytes. -/
theorem opcodeRows_keys : opcodeRows.map Prod.fst = definedBytes := rfl

/-- A byte the opcode map does not list matches no row of the decoder. -/
theorem lookup_opcodeRows_of_notMem {b : Byte} (hb : b ∉ definedBytes) : opcodeRows.lookup b = none := by
  refine List.lookup_eq_none_iff.2 fun row hrow => ?_
  rw [← opcodeRows_keys] at hb
  exact bne_iff_ne.2 fun h => hb (h ▸ List.mem_map_of_mem hrow)

theorem decodeByte_eq_unknown_iff {b : Byte} : decodeByte b = .unknown b ↔ b ∉ definedBytes := by
  refine ⟨fun h => cls_eq_unknown_iff.1 ?_, fun hb => ?_⟩
  · rw [← decodeByte_cls, h, Instr.cls]
  · rw [decodeByte, lookup_opcodeRows_of_notMem hb, Option.getD_none]

/-- The listed bytes are ASCII: bit 7 is clear. -/
theorem getLsbD_seven_of_mem : ∀ b ∈ definedBytes, b.getLsbD 7 = false := by decide

/-- The engine does not mask bit 7 (R59). -/
theorem cls_eq_unknown_of_bit_seven {b : Byte} (h : b.getLsbD 7 = true) : cls b = .unknown :=
  cls_eq_unknown_iff.2 fun hb => Bool.false_ne_true ((getLsbD_seven_of_mem b hb).symm.trans h)

/-- The 256 byte values, in order. -/
def allBytes : List Byte := (List.range 256).map (BitVec.ofNat 8)

theorem mem_allBytes (b : Byte) : b ∈ allBytes :=
  List.mem_map.2 ⟨b.toNat, List.mem_range.2 b.isLt, (BitVec.ofNat_toNat 8 b).trans (BitVec.setWidth_eq b)⟩

theorem nodup_allBytes : allBytes.Nodup := by
  refine List.Nodup.map_on (fun m hm n hn h => ?_) List.nodup_range
  have hmod := congrArg BitVec.toNat h
  rw [List.mem_range] at hm hn
  rwa [BitVec.toNat_ofNat, BitVec.toNat_ofNat, Nat.mod_eq_of_lt hm, Nat.mod_eq_of_lt hn] at hmod

/-- Each listed byte occurs once among the 256. -/
theorem filter_defined_perm : (allBytes.filter (· ∈ definedBytes)).Perm definedBytes :=
  (List.perm_ext_iff_of_nodup (nodup_allBytes.filter _) (by decide)).2 fun b => by simp [mem_allBytes]

/-- The UNKNOWN values are the 256 without the 18 listed ones (R59). -/
theorem length_filter_unknown : (allBytes.filter fun b => decide (cls b = .unknown)).length = 238 := by
  have hsplit := allBytes.length_eq_length_filter_add (· ∈ definedBytes)
  have hdefined : (allBytes.filter (· ∈ definedBytes)).length = 18 := filter_defined_perm.length_eq
  have hall : allBytes.length = 256 := by simp [allBytes]
  simp only [← decide_not, ← cls_eq_unknown_iff] at hsplit
  omega

/-! ### The drive group -/

/-- `b[7:3]` is the byte's value shifted down by 3. -/
theorem drvSelect_toNat (b : Byte) : (drvSelect b).toNat = b.toNat / 8 := by
  have := b.isLt
  simp only [drvSelect, BitVec.extractLsb'_toNat, Nat.shiftRight_eq_div_pow]
  omega

/-- The drive group's selector is exactly the range `'0'` to `'7'` (R56). -/
theorem drvSelect_eq_iff {b : Byte} : drvSelect b = 0b00110#5 ↔ 0x30 ≤ b.toNat ∧ b.toNat ≤ 0x37 := by
  rw [← BitVec.toNat_inj, drvSelect_toNat, BitVec.toNat_ofNat]
  omega

/-- The selector alone decides the drive group: no other class carries its operand (R56). -/
theorem cls_eq_drv_iff {b : Byte} {v : BitVec 3} : cls b = .drv v ↔ drvSelect b = 0b00110#5 ∧ v = drvField b := by
  unfold cls
  split
  case isTrue hsel => simp [hsel, eq_comm]
  case isFalse hsel => split_ifs <;> simp [hsel]

/-- The operand's three fields are the byte's three low bits (R56). -/
theorem drvField_bits (b : Byte) :
    tdiVal (drvField b) = b.extractLsb' 0 1 ∧ tmsVal (drvField b) = b.extractLsb' 1 1 ∧
      tckVal (drvField b) = b.extractLsb' 2 1 := by
  refine ⟨?_, ?_, ?_⟩ <;> exact BitVec.extractLsb'_extractLsb'_of_le (by decide)

/-! ### The reset group -/

/-- The four bytes of the reset group are exactly the range `'r'` to `'u'` (R57). -/
theorem rst_byte_iff {b : Byte} :
    (b = 0x72#8 ∨ b = 0x73#8 ∨ b = 0x74#8 ∨ b = 0x75#8) ↔ 0x72 ≤ b.toNat ∧ b.toNat ≤ 0x75 := by
  simp only [← BitVec.toNat_inj, BitVec.toNat_ofNat]
  omega

/-- On the reset group the operand's subtraction does not underflow, nor does it exceed 3 (R57). -/
theorem rstField_toNat {b : Byte} (hlo : 0x72 ≤ b.toNat) (hhi : b.toNat ≤ 0x75) :
    (rstField b).toNat = b.toNat - 0x72 := by
  have hle : 0x72#8 ≤ b := BitVec.le_def.2 hlo
  rw [rstField, BitVec.extractLsb'_toNat, Nat.shiftRight_zero, BitVec.toNat_sub_of_le hle, BitVec.toNat_ofNat]
  omega

/-- The reset group is matched by value; none of its bytes has the drive group's selector (R57). -/
theorem cls_eq_rst_iff {b : Byte} {rv : BitVec 2} :
    cls b = .rst rv ↔ (0x72 ≤ b.toNat ∧ b.toNat ≤ 0x75) ∧ rv = rstField b := by
  rw [← rst_byte_iff]
  unfold cls
  split
  case isTrue hsel =>
    have hnot : ¬(b = 0x72#8 ∨ b = 0x73#8 ∨ b = 0x74#8 ∨ b = 0x75#8) := by
      have hrange := drvSelect_eq_iff.1 hsel
      rw [rst_byte_iff]
      omega
    simp [hnot]
  case isFalse =>
    split
    case isTrue hrst => simp [hrst, eq_comm]
    case isFalse hrst => split_ifs <;> simp [hrst]

/-! ### The obligations -/

/-- Settles O3: UNKNOWN is what the opcode map leaves out, in the class function and in the decoder alike. -/
theorem undefinedBytesAreUnknown : Obligations.UndefinedBytesAreUnknown := by
  refine ⟨fun b => cls_eq_unknown_iff, fun b => decodeByte_eq_unknown_iff, length_filter_unknown,
    fun b h => cls_eq_unknown_of_bit_seven h, fun b hb => cls_eq_unknown_iff.2 ?_⟩
  revert b
  decide

/-- Settles O4: the drive group by its selector, the reset group by value. -/
theorem operandFieldsOfTheDriveAndResetGroups : Obligations.OperandFieldsOfTheDriveAndResetGroups := by
  refine ⟨fun b => drvSelect_eq_iff, fun b v => ?_, drvField_bits, fun b rv => ?_, fun rv => ⟨rfl, rfl⟩,
    by decide, by decide⟩
  · rw [cls_eq_drv_iff, drvSelect_eq_iff, drvField, and_assoc]
  · rw [cls_eq_rst_iff, and_assoc]
    refine and_congr_right fun hlo => and_congr_right fun hhi => ?_
    rw [← BitVec.toNat_inj, rstField_toNat hlo hhi]

end Sys2Proof.Machine
end

