-- ==== Sys2Proof/Proofs/TickOutcomes.lean ====
section
/-! SUPPORT. What a tick does to the timer, the stream and the channels in each of its three forms (R64 to R66): the
countdown, the idle tick, and the tick that looks at a head byte. -/

namespace Sys2Proof.Machine

open Sys2Proof

variable {s : State}

/-! ### The countdown -/

/-- The decrement leaves the head of the stream where it is (R64). -/
@[simp] theorem fetch_timerDecr : (timerDecr s).fetch = s.fetch := rfl

/-! ### The tick that looks at a head byte -/

/-- With timer 0 and a byte at the head, the tick is the act of the byte's class (R63). -/
theorem engStep_of_cmd_q_cons {b : Byte} {q : List Byte} (h0 : s.eng.timer = 0) (hq : s.cmd_q = b :: q) :
    engStep s = .next (s.apply (classAct s.cfg s.eng s.smpSpace s.env.tdo_i (cls b))) := by
  rw [engStep_of_fetch h0 (fetch_cons hq), exec_eq_apply, decodeByte_cls]

/-- The two cases in which a class consumes its byte (R66). -/
theorem classAct_pop_iff_two_cases {c : Config} {r : EngState} {space : Bool} {tdo : Bit} {k : CmdClass} :
    (classAct c r space tdo k).2.1 = true ↔ (k ≠ .read ∧ k ≠ .unknown) ∨ (k = .read ∧ space = true) := by
  rw [classAct_pop]
  by_cases hread : k = .read <;> simp [hread]

/-- The two cases in which it does not: the wedge, and READ without space (R66). -/
theorem classAct_no_pop_iff {c : Config} {r : EngState} {space : Bool} {tdo : Bit} {k : CmdClass} :
    (classAct c r space tdo k).2.1 = false ↔ k = .unknown ∨ (k = .read ∧ space = false) := by
  rw [← Bool.not_eq_true, classAct_pop]
  simp only [not_and_or, not_not, Classical.not_imp, Bool.not_eq_true]

section Apply
variable {o : EngState × Bool × Option Byte}

/-- An answer that pops advances the stream by one byte. -/
theorem apply_of_pop (hpop : o.2.1 = true) :
    (s.apply o).cmd_q = s.cmd_q.tail ∧ (s.apply o).pos = s.pos + 1 := by
  simp [State.apply, hpop]

/-- An answer that does not pop leaves the stream. -/
theorem apply_of_no_pop (hpop : o.2.1 = false) : (s.apply o).cmd_q = s.cmd_q ∧ (s.apply o).pos = s.pos := by
  simp [State.apply, hpop]

/-- An answer pushes at most one byte. -/
theorem apply_smp_q_cases : (s.apply o).smp_q = s.smp_q ∨ ∃ b, (s.apply o).smp_q = s.smp_q ++ [b] := by
  cases hpush : o.2.2 with
  | none => left; simp [State.apply, hpush]
  | some b => right; exact ⟨b, by simp [State.apply, hpush]⟩

end Apply

/-! ### The obligations -/

/-- Settles O10: the tick is the decrement; after 1 the timer is 0 with the same byte at the head, so the next tick runs
it. -/
theorem aNonzeroTimerOnlyCountsDown : Obligations.ANonzeroTimerOnlyCountsDown := by
  intro s hne
  have htick : engStep s = .next (timerDecr s) := engStep_of_timer_ne_zero hne
  refine ⟨htick, Nat.sub_one_add_one hne, fun hone t ht => ?_, fun hne_one t ht => ?_⟩
  · obtain rfl : timerDecr s = t := Host.Outcome.next.inj (htick.symm.trans ht)
    have hzero : (timerDecr s).eng.timer = 0 := by simp [hone]
    exact ⟨hzero, fun i hi => engStep_of_fetch hzero (fetch_timerDecr.trans hi)⟩
  · rw [engStep_timer_eq_pred hne ht]
    omega

/-- Settles O11: with no byte to fetch the tick answers the same state. -/
theorem anEmptyChannelIdles : Obligations.AnEmptyChannelIdles :=
  fun _ h0 hq => engStep_of_fetch_none h0 (fetch_nil hq)

/-- Settles O12: the tick is the act of the head byte's class, whose pop is the rule's two cases. -/
theorem theHeadByteIsConsumedInTwoCases : Obligations.TheHeadByteIsConsumedInTwoCases := by
  intro s b q h0 hq
  refine ⟨_, engStep_of_cmd_q_cons h0 hq, fun hcases => ?_, fun hcases => ?_, apply_smp_q_cases⟩
  · obtain ⟨hcmd, hpos⟩ := apply_of_pop (s := s) (classAct_pop_iff_two_cases.2 hcases)
    exact ⟨by rw [hcmd, hq, List.tail_cons], hpos⟩
  · have hkeep : (classAct s.cfg s.eng s.smpSpace s.env.tdo_i (cls b)).2.1 = false := by
      rwa [← Bool.not_eq_true, classAct_pop_iff_two_cases]
    obtain ⟨hcmd, hpos⟩ := apply_of_no_pop (s := s) hkeep
    exact ⟨hcmd, hpos, classAct_no_pop_iff.1 hkeep⟩

end Sys2Proof.Machine
end

