-- ==== Sys2Proof/Proofs/DriveCommands.lean ====
section
/-! SUPPORT. The drive commands (R71 to R79): one rule for the whole class, its operand read as the three signals' bits. -/

namespace Sys2Proof.Machine

open Sys2Proof

/-- The operand `tck tms tdi`, bit 2 first, carries those three bits (R56, R71). -/
theorem drv_operand_fields : ∀ tck tms tdi : Bit,
    tdiVal (tck ++ tms ++ tdi) = tdi ∧ tmsVal (tck ++ tms ++ tdi) = tms ∧ tckVal (tck ++ tms ++ tdi) = tck := by
  decide

/-- Every instruction of the drive class does `Drive(v)` with its class's operand, and nothing else (R71). -/
theorem exec_eq_drive {i : Instr} {v : BitVec 3} (hcls : i.cls = .drv v) (s : State) :
    exec i s = .next (drive v s) := by
  rw [exec_eq_apply, hcls]
  simp [State.apply, classAct, drive, cmdPop]

/-- The state after a drive command, by the bits of its operand (R71). -/
theorem exec_of_drv_bits {i : Instr} {tck tms tdi : Bit} (hcls : i.cls = .drv (tck ++ tms ++ tdi)) (s : State) :
    exec i s = .next { s with
      eng := { s.eng with tdi := tdi, tms := tms, tck := tck, timer := s.cfg.P - 1 }
      cmd_q := s.cmd_q.tail, pos := s.pos + 1 } := by
  obtain ⟨htdi, htms, htck⟩ := drv_operand_fields tck tms tdi
  rw [exec_eq_drive hcls, drive, htdi, htms, htck]
  rfl

/-- Settles O16: each command's operand is the concatenation of the bits it drives, so the class's rule gives its next
state. -/
theorem driveCommandsSetTheSignalsAndArm : Obligations.DriveCommandsSetTheSignalsAndArm := by
  refine ⟨fun s => ⟨?_, ?_, ?_, ?_, ?_, ?_, ?_, ?_⟩, rfl, rfl, rfl, rfl, rfl, rfl, rfl, rfl⟩ <;>
    exact exec_of_drv_bits rfl s

end Sys2Proof.Machine
end

