-- ==== Sys2Proof/Proofs/ResetCommands.lean ====
section
/-! SUPPORT. The reset commands (R80 to R84): one rule for the whole class, its operand read as the two signals' bits,
as an instruction and as a tick. -/

namespace Sys2Proof.Machine

open Sys2Proof

/-- The operand `trst srst`, bit 1 first, carries those two bits (R57, R80). -/
theorem rst_operand_fields : ∀ trst srst : Bit, srstVal (trst ++ srst) = srst ∧ trstVal (trst ++ srst) = trst := by
  decide

/-- Every instruction of the reset class does `ResetPair(rv)` with its class's operand, and nothing else (R80). -/
theorem exec_eq_resetPair {i : Instr} {rv : BitVec 2} (hcls : i.cls = .rst rv) (s : State) :
    exec i s = .next (resetPair rv s) := by
  rw [exec_eq_apply, hcls]
  simp [State.apply, classAct, resetPair, cmdPop]

/-- The state after a reset command, by the bits of its operand (R80). -/
theorem exec_of_rst_bits {i : Instr} {trst srst : Bit} (hcls : i.cls = .rst (trst ++ srst)) (s : State) :
    exec i s = .next { s with
      eng := { s.eng with srst_o := srst, trst_o := trst }, cmd_q := s.cmd_q.tail, pos := s.pos + 1 } := by
  obtain ⟨hsrst, htrst⟩ := rst_operand_fields trst srst
  rw [exec_eq_resetPair hcls, resetPair, hsrst, htrst]
  rfl

/-- The tick that finds a reset byte at the head; the timer stays 0, so the next tick looks at the next byte (R80). -/
theorem engStep_of_rst_byte {s : State} {b : Byte} {q : List Byte} {trst srst : Bit} (hb : cls b = .rst (trst ++ srst))
    (h0 : s.eng.timer = 0) (hq : s.cmd_q = b :: q) :
    engStep s = .next { s with
      eng := { s.eng with srst_o := srst, trst_o := trst }, cmd_q := q, pos := s.pos + 1 } := by
  rw [engStep_of_fetch h0 (fetch_cons hq), exec_of_rst_bits ((decodeByte_cls b).trans hb), hq, List.tail_cons]

/-- Settles O17: each command's operand is the concatenation of the bits it drives, and `'u'` then `'r'` are two such
ticks in a row; the neighbours `0x71` and `0x76` are not in the opcode map. -/
theorem resetCommandsSetBothResetSignals : Obligations.ResetCommandsSetBothResetSignals := by
  refine ⟨fun s => ⟨exec_of_rst_bits rfl s, exec_of_rst_bits rfl s, exec_of_rst_bits rfl s, exec_of_rst_bits rfl s⟩,
    fun s q h0 hq => ?_, rfl, rfl, rfl, rfl, by decide, decodeByte_eq_unknown_iff.2 (by decide),
    decodeByte_eq_unknown_iff.2 (by decide)⟩
  have hset : cls 0x75#8 = .rst (1#1 ++ 1#1) := by decide
  have hclear : cls 0x72#8 = .rst (0#1 ++ 0#1) := by decide
  exact ⟨_, _, engStep_of_rst_byte hset h0 hq, engStep_of_rst_byte hclear h0 rfl, rfl, rfl, rfl, rfl⟩

end Sys2Proof.Machine
end

