-- ==== Sys2Proof/Proofs/SampleCommand.lean ====
section
/-! SUPPORT. The sample command READ (R85): the byte it pushes, and a channel of depth 1, which one READ fills and one
read of the inbound loop empties. -/

namespace Sys2Proof.Machine

open Sys2Proof

variable {s t : State}

/-- The sample of `tdo = 0` is ASCII `'0'`, the other one ASCII `'1'` (R85). -/
theorem sampleByte_eq_ite : ∀ tdo : Bit, sampleByte tdo = if tdo = 0#1 then 0x30#8 else 0x31#8 := by decide

/-- A READ with room for just one more byte fills the channel (R85). -/
theorem exec_read_fills (hlast : s.smp_q.length + 1 = s.cfg.SMP_DEPTH) (h : exec .read s = .next t) :
    t.cfg.SMP_DEPTH = t.smp_q.length := by
  have hroom : s.smp_q.length < s.cfg.SMP_DEPTH := by omega
  obtain rfl := Host.Outcome.next.inj ((exec_read_of_room hroom).symm.trans h)
  simp [← hlast]

/-- The inbound loop takes at least one byte, so a channel within its depth has space after its read (R28, R111). -/
theorem smpSpace_of_inRead {k : Nat} (hbound : s.smp_q.length ≤ s.cfg.SMP_DEPTH) (h : inRead k s = some t) :
    t.smpSpace = true := by
  obtain ⟨-, ⟨hpos, hk⟩, rfl⟩ := inRead_some.1 h
  have hless : (s.smp_q.drop k).length < s.cfg.SMP_DEPTH := by
    rw [List.length_drop]
    omega
  exact smpSpace_iff.2 hless

/-- Settles O18: with depth 1 the first READ fills the channel, so the second one finds no space, and the inbound loop's
read makes some. -/
theorem readPushesTheSample : Obligations.ReadPushesTheSample := by
  refine ⟨fun s hroom => ?_, fun s t hdepth hempty h => ?_, rfl⟩
  · rw [exec_read_of_room hroom, sampleByte_eq_ite]
    rfl
  · have hfull : t.cfg.SMP_DEPTH = t.smp_q.length := exec_read_fills (by rw [hdepth, hempty]; rfl) h
    exact ⟨exec_read_of_full hfull.le, fun u hu => smpSpace_of_inRead hfull.ge hu⟩

end Sys2Proof.Machine
end

