-- ==== Sys2Proof/Proofs/BlinkCommands.lean ====
section
/-! SUPPORT. The blink commands (R88 to R90): one rule for the whole class, as an instruction and as a tick. -/

namespace Sys2Proof.Machine

open Sys2Proof

/-- Every instruction of the blink class does `SetBlink(x)` with its class's operand, and nothing else (R88). -/
theorem exec_eq_setBlink {i : Instr} {x : Bit} (hcls : i.cls = .blink x) (s : State) :
    exec i s = .next (setBlink x s) := by
  rw [exec_eq_apply, hcls]
  simp [State.apply, classAct, setBlink, cmdPop]

/-- The state after a blink command: `blink` is the operand, whatever it was (R89, R90). -/
theorem exec_of_blink {i : Instr} {x : Bit} (hcls : i.cls = .blink x) (s : State) :
    exec i s = .next { s with
      eng := { s.eng with blink := x }, cmd_q := s.cmd_q.tail, pos := s.pos + 1 } :=
  exec_eq_setBlink hcls s

/-- The tick that finds a blink byte at the head; the timer stays 0, so the next tick looks at the next byte (R88). -/
theorem engStep_of_blink_byte {s : State} {b : Byte} {q : List Byte} {x : Bit} (hb : cls b = .blink x)
    (h0 : s.eng.timer = 0) (hq : s.cmd_q = b :: q) :
    engStep s = .next { s with eng := { s.eng with blink := x }, cmd_q := q, pos := s.pos + 1 } := by
  rw [engStep_of_fetch h0 (fetch_cons hq), exec_of_blink ((decodeByte_cls b).trans hb), hq, List.tail_cons]

/-- Settles O20: both commands are of the blink class, and `"BB"` is two ticks in a row that set the same value. -/
theorem blinkCommandsSetTheIndicatorBit : Obligations.BlinkCommandsSetTheIndicatorBit := by
  refine ⟨fun s => ⟨exec_of_blink rfl s, exec_of_blink rfl s⟩, rfl, rfl, by decide, fun s q h0 hq => ?_⟩
  have hset : cls 0x42#8 = .blink 1#1 := by decide
  exact ⟨_, _, engStep_of_blink_byte hset h0 hq, engStep_of_blink_byte hset h0 rfl, rfl, rfl⟩

end Sys2Proof.Machine
end

