-- ==== Sys2Proof/Proofs/QuitUnknown.lean ====
section
/-! SUPPORT. QUIT (R95) as a tick that only takes its byte off the stream, and the unknown bytes (R97): the tick of a
wedged state, and any number of such ticks. -/

namespace Sys2Proof.Machine

open Sys2Proof

variable {s t : State}

/-! ### The instruction at the head of the stream -/

/-- What the decoder reads is what a tick fetches (R42). -/
theorem fetch_of_decode {i : Instr} {rest : List Byte} (h : decode s.cmd_q = .ok (i, rest)) : s.fetch = some i := by
  rw [State.fetch, h]

theorem fetch_of_head {b : Byte} (h : s.cmd_q.head? = some b) : s.fetch = some (decodeByte b) := by
  obtain ⟨q, hq⟩ := List.head?_eq_some_iff.1 h
  exact fetch_cons hq

/-! ### QUIT -/

theorem exec_quit (s : State) : exec .quit s = .next (cmdPop s) := rfl

/-- The tick that finds `'Q'` at the head; the timer stays 0, so the next tick looks at the next byte (R95). -/
theorem engStep_of_quit_byte {q : List Byte} (h0 : s.eng.timer = 0) (hq : s.cmd_q = 0x51#8 :: q) :
    engStep s = .next { s with cmd_q := q, pos := s.pos + 1 } := by
  have hquit : decodeByte 0x51#8 = .quit := rfl
  rw [engStep_of_fetch h0 (fetch_cons hq), hquit, exec_quit, cmdPop, hq, List.tail_cons]

/-- The tick that finds a drive byte at the head (R71). -/
theorem engStep_of_drv_byte {b : Byte} {q : List Byte} {tck tms tdi : Bit} (hb : cls b = .drv (tck ++ tms ++ tdi))
    (h0 : s.eng.timer = 0) (hq : s.cmd_q = b :: q) :
    engStep s = .next { s with
      eng := { s.eng with tdi := tdi, tms := tms, tck := tck, timer := s.cfg.P - 1 }
      cmd_q := q, pos := s.pos + 1 } := by
  rw [engStep_of_fetch h0 (fetch_cons hq), exec_of_drv_bits ((decodeByte_cls b).trans hb), hq, List.tail_cons]

/-- Settles O22: QUIT is the pop alone, so after its tick the timer is still 0 and the next tick runs the next byte; in
`"Q1"` that is a drive byte with `tdi = 1`. -/
theorem quitOnlyConsumesItsByte : Obligations.QuitOnlyConsumesItsByte := by
  refine ⟨exec_quit, fun s q i h0 hq hi => ?_, fun s q h0 hq => ?_, rfl⟩
  · exact ⟨engStep_of_quit_byte h0 hq, engStep_of_fetch h0 (fetch_of_decode hi)⟩
  · have hdrv1 : cls 0x31#8 = .drv (0#1 ++ 0#1 ++ 1#1) := by decide
    exact ⟨_, _, engStep_of_quit_byte h0 hq, engStep_of_drv_byte hdrv1 h0 rfl, rfl, rfl, rfl⟩

/-! ### The unknown bytes -/

theorem exec_unknown (b : Byte) (s : State) : exec (.unknown b) s = .next s := rfl

/-- Wedged, by the opcode map: the head byte is one the map does not list (R59, R97). -/
theorem wedged_iff_undefined_head :
    Wedged s ↔ s.eng.timer = 0 ∧ s.cmd_q ≠ [] ∧ ∃ b, s.cmd_q.head? = some b ∧ b ∉ definedBytes := by
  refine and_congr_right fun _ => ⟨fun ⟨b, hb, hcls⟩ => ?_, fun ⟨_, b, hb, hundef⟩ => ?_⟩
  · exact ⟨List.ne_nil_of_mem (List.mem_of_mem_head? hb), b, hb, cls_eq_unknown_iff.1 hcls⟩
  · exact ⟨b, hb, cls_eq_unknown_iff.2 hundef⟩

/-- The tick of a wedged state is that state: it fetches UNKNOWN (R97). -/
theorem engStep_of_wedged (h : Wedged s) : engStep s = .next s := by
  obtain ⟨h0, b, hb, hcls⟩ := h
  have hunknown : decodeByte b = .unknown b := decodeByte_eq_unknown_iff.2 (cls_eq_unknown_iff.1 hcls)
  rw [engStep_of_fetch h0 (fetch_of_head hb), hunknown, exec_unknown]

/-- As an event, the tick of a wedged state only takes its draw of `tdo`. -/
theorem stepEvent_eng_of_wedged (hadm : s.cfg.Admitted) (h : Wedged s) (tdo : Bit) :
    stepEvent (.eng tdo) s = .next (s.drawTdo tdo) := by
  have hdraw : Wedged (s.drawTdo tdo) := h
  rw [stepEvent_eng hadm, engStep_of_wedged hdraw]

/-- A run goes on from the state its first event answers. -/
theorem runEvents_cons_of_next {e : Event} (h : stepEvent e s = .next t) (es : List Event) :
    runEvents (e :: es) s = runEvents es t := by
  rw [runEvents, h]

/-- However many ticks a wedged state takes, its registers and its channels are the same (R97). -/
theorem runEvents_eng_of_wedged (tdos : List Bit) (hadm : s.cfg.Admitted) (h : Wedged s) :
    ∃ t, runEvents (tdos.map .eng) s = .next t ∧ t.eng = s.eng ∧ t.cmd_q = s.cmd_q ∧ t.smp_q = s.smp_q := by
  induction tdos generalizing s with
  | nil => exact ⟨s, rfl, rfl, rfl, rfl⟩
  | cons tdo tdos ih =>
    obtain ⟨t, hrun, hkeep⟩ := ih (s := s.drawTdo tdo) hadm h
    exact ⟨t, (runEvents_cons_of_next (stepEvent_eng_of_wedged hadm h tdo) _).trans hrun, hkeep⟩

/-- Settles O23: UNKNOWN has no effect, and the state with `"X1R"` at timer 0 is wedged, so each of its ticks is one of
a wedged state. -/
theorem anUnknownByteDoesNothing : Obligations.AnUnknownByteDoesNothing := by
  refine ⟨exec_unknown, fun s => wedged_iff_undefined_head, fun s h => engStep_of_wedged h,
    fun s tdos hadm h0 hq => runEvents_eng_of_wedged tdos hadm ?_⟩
  exact ⟨h0, 0x58#8, by rw [hq, List.head?_cons], by decide⟩

end Sys2Proof.Machine
end

