-- ==== Sys2Proof/Proofs/BridgeStops.lean ====
section
/-! SUPPORT. How a bridge loop stops: by a failed send (R114), by its own error (R116), or by the cancellation of the
session (R121), the one step that can stop two running loops. -/

namespace Sys2Proof.Machine

open Sys2Proof

variable {s t : State}

/-! ### The send and its failure -/

/-- A broken transport sends nothing (R114). -/
theorem inSend_of_broken (hbroken : s.net.net_broken = true) : inSend s = none := by
  refine Option.eq_none_iff_forall_ne_some.2 fun t h => ?_
  obtain ⟨-, -, hsound, -⟩ := inSend_some.1 h
  rw [hbroken] at hsound
  cases hsound

/-- Settles O41: the two equivalences are the rules of the steps; a failed send is the loop's error, which touches no
byte of the network. -/
theorem sendDeliversWholeOrFails : Obligations.SendDeliversWholeOrFails := by
  refine ⟨fun s t => inSend_some, fun s t => inNetError_some, fun s hbroken => inSend_of_broken hbroken,
    fun s t h => ?_⟩
  obtain ⟨-, -, rfl⟩ := inNetError_some.1 h
  exact ⟨congrArg Net.net_tx (raiseLoop_net ..), raise_inbound_in_st ..⟩

/-! ### A loop's error -/

theorem firstErr_of_none {b : Bridge} (h : b.first_err = none) (r : Reason) : b.firstErr r = r := by
  rw [Bridge.firstErr, h, Option.getD_none]

theorem firstErr_of_some {b : Bridge} {f : Reason} (h : b.first_err = some f) (r : Reason) : b.firstErr r = f := by
  rw [Bridge.firstErr, h, Option.getD_some]

/-- An error moves only an active session on; any other stays as it is (R116). -/
theorem afterError_of_ne_active {x : Sess} (h : x ≠ .Active) : x.afterError = x := by
  cases x with
  | Active => exact absurd rfl h
  | Ending => rfl
  | Ended r => rfl

/-- The session after a loop's error, by the loops that are then stopped (R116). -/
theorem raiseLoop_sess (l : Loop) (r : Reason) (s : State) : (raiseLoop l r s).br.sess =
    if (raiseLoop l r s).br.bothStopped then .Ended (s.br.firstErr r) else s.br.sess.afterError := rfl

theorem raiseLoop_sess_of_bothStopped {l : Loop} {r : Reason} (h : (raiseLoop l r s).br.bothStopped = true) :
    (raiseLoop l r s).br.sess = .Ended (s.br.firstErr r) := by
  rw [raiseLoop_sess, if_pos h]

theorem raiseLoop_sess_of_survivor {l : Loop} {r : Reason} (h : (raiseLoop l r s).br.bothStopped = false) :
    (raiseLoop l r s).br.sess = s.br.sess.afterError := by
  rw [raiseLoop_sess, h, if_neg Bool.false_ne_true]

/-- The supervisor ends the session with the recorded error (R119). -/
theorem cancelSurvivor_sess {f : Reason} (h : s.br.first_err = some f) (l : Loop) :
    (cancelSurvivor l s).br.sess = .Ended f :=
  congrArg Sess.Ended (firstErr_of_some h _)

/-- After a first error in an active session the supervisor can cancel the other loop, which ends the session with that
error (R116, R119). -/
theorem sup_after_first_error (l : Loop) (r : Reason) (hactive : s.br.sess = .Active) (hnone : s.br.first_err = none)
    (hout : s.br.out_st.isStopped = false) (hin : s.br.in_st.isStopped = false) :
    ∃ u, sup (raiseLoop l r s) = some u ∧ u.br.sess = .Ended r ∧ u.br.out_st.isStopped = true ∧
      u.br.in_st.isStopped = true := by
  have hfirst : (raiseLoop l r s).br.first_err = some r := by rw [raiseLoop_first_err, firstErr_of_none hnone]
  have hending (hsurvivor : (raiseLoop l r s).br.bothStopped = false) : (raiseLoop l r s).br.sess = .Ending := by
    rw [raiseLoop_sess_of_survivor hsurvivor, hactive]
    rfl
  cases l with
  | outbound =>
    exact ⟨_, sup_some.2 ⟨hending hin, .inr ⟨rfl, hin, rfl⟩⟩, cancelSurvivor_sess hfirst _, rfl, rfl⟩
  | inbound =>
    have hsurvivor : (raiseLoop .inbound r s).br.bothStopped = false := Bool.and_eq_false_imp.2 fun h => by
      rw [raise_inbound_out_st, hout] at h
      cases h
    exact ⟨_, sup_some.2 ⟨hending hsurvivor, .inl ⟨hout, rfl, rfl⟩⟩, cancelSurvivor_sess hfirst _, rfl, rfl⟩

/-- Settles O43: the loops, the record and the frame are the laws of `raiseLoop`; the session goes by whether a loop
survives, and a survivor of a first error is the supervisor's to cancel. -/
theorem aLoopErrorStopsTheLoopAndKeepsTheFirstReason : Obligations.ALoopErrorStopsTheLoopAndKeepsTheFirstReason := by
  rintro l r s t rfl
  refine ⟨?outbound, ?inbound, fun hnone => ?first, fun f hf => ?later, fun hboth f hf => ?ended,
    fun hsurvivor => ⟨fun hactive => ?ending, fun hother => ?notActive⟩, raiseLoop_hbuf .., rfl, rfl, rfl, rfl, rfl,
    rfl, rfl, sup_after_first_error l r⟩
  case outbound => rintro rfl; exact ⟨raise_outbound_out_st .., raise_outbound_in_st ..⟩
  case inbound => rintro rfl; exact ⟨raise_inbound_in_st .., raise_inbound_out_st ..⟩
  case first => rw [raiseLoop_first_err, firstErr_of_none hnone]
  case later => rw [raiseLoop_first_err, firstErr_of_some hf]
  case ended =>
    rw [raiseLoop_first_err, Option.some.injEq] at hf
    rw [raiseLoop_sess_of_bothStopped hboth, hf]
  case ending =>
    rw [raiseLoop_sess_of_survivor hsurvivor, hactive]
    rfl
  case notActive => rw [raiseLoop_sess_of_survivor hsurvivor, afterError_of_ne_active hother]

/-! ### Cancelling the session -/

theorem stopIfRunning_outbound (r : Reason) (b : Bridge) : b.stopIfRunning .outbound r =
    { b with out_st := if b.out_st.isStopped then b.out_st else .Stopped r } := by
  unfold Bridge.stopIfRunning Bridge.stopped Bridge.stop
  cases b.out_st.isStopped <;> rfl

theorem stopIfRunning_inbound (r : Reason) (b : Bridge) : b.stopIfRunning .inbound r =
    { b with in_st := if b.in_st.isStopped then b.in_st else .Stopped r } := by
  unfold Bridge.stopIfRunning Bridge.stopped Bridge.stop
  cases b.in_st.isStopped <;> rfl

/-- An error of one loop leaves the other where it is (R116). -/
theorem raiseLoop_keeps_a_loop (l : Loop) (r : Reason) (s : State) :
    (raiseLoop l r s).br.out_st = s.br.out_st ∨ (raiseLoop l r s).br.in_st = s.br.in_st := by
  cases l with
  | outbound => exact .inr rfl
  | inbound => exact .inl rfl

/-- So does an absorbed cancellation of one loop (R118). -/
theorem absorbCancel_keeps_a_loop (l : Loop) (eff : AbsorbEffect) (s : State) :
    (absorbCancel l eff s).br.out_st = s.br.out_st ∨ (absorbCancel l eff s).br.in_st = s.br.in_st := by
  cases eff with
  | keep => exact .inl rfl
  | restart =>
    cases l with
    | outbound => exact .inr (restart_outbound_in_st ..)
    | inbound => exact .inl (restart_inbound_out_st ..)

/-- Every step but the cancellation of the session leaves at least one of the loops where it is. -/
theorem agentStep_keeps_a_loop {a : AgentStep} (ha : a ≠ .hostCancelSession) (h : agentStep a s = some t) :
    t.br.out_st = s.br.out_st ∨ t.br.in_st = s.br.in_st := by
  cases a <;> simp only [agentStep] at h
  case outRecv k => obtain ⟨-, -, rfl⟩ := outRecv_some.1 h; exact .inr rfl
  case outNetError => obtain ⟨-, -, rfl⟩ := outNetError_some.1 h; exact raiseLoop_keeps_a_loop ..
  case outNetEof => obtain ⟨-, -, rfl⟩ := outNetEof_some.1 h; exact raiseLoop_keeps_a_loop ..
  case outWrite => obtain ⟨-, -, rfl⟩ := outWrite_some.1 h; exact .inr rfl
  case outFlush => obtain ⟨-, -, rfl⟩ := outFlush_some.1 h; exact .inr rfl
  case outIfaceError => obtain ⟨-, rfl⟩ := outIfaceError_some.1 h; exact raiseLoop_keeps_a_loop ..
  case inRead k => obtain ⟨-, -, rfl⟩ := inRead_some.1 h; exact .inl rfl
  case inSend => obtain ⟨-, -, -, rfl⟩ := inSend_some.1 h; exact .inl rfl
  case inNetError => obtain ⟨-, -, rfl⟩ := inNetError_some.1 h; exact raiseLoop_keeps_a_loop ..
  case inIfaceError => obtain ⟨-, rfl⟩ := inIfaceError_some.1 h; exact raiseLoop_keeps_a_loop ..
  case xfer => obtain ⟨-, -, -, -, rfl⟩ := xfer_some.1 h; exact .inl rfl
  case sup =>
    obtain ⟨-, ⟨-, -, rfl⟩ | ⟨-, -, rfl⟩⟩ := sup_some.1 h
    · exact .inr rfl
    · exact .inl rfl
  case hostSend d => obtain ⟨-, rfl⟩ := hostSend_some.1 h; exact .inl rfl
  case hostClose => obtain ⟨-, rfl⟩ := hostClose_some.1 h; exact .inl rfl
  case hostBreak => obtain ⟨-, rfl⟩ := hostBreak_some.1 h; exact .inl rfl
  case hostCancelIter l eff =>
    obtain ⟨-, -, rfl⟩ := hostCancelIter_some.1 h
    split
    · exact absorbCancel_keeps_a_loop ..
    · exact raiseLoop_keeps_a_loop ..
  case hostCancelSession => exact absurd rfl ha
  case loseResidue => obtain ⟨-, rfl⟩ := loseResidue_some.1 h; exact .inl rfl

/-- Settles O46: the cancellation stops each running loop and touches nothing else; any other step leaves one of two
running loops where it is, so running. -/
theorem sessionCancellationStopsBothLoops : Obligations.SessionCancellationStopsBothLoops := by
  refine ⟨fun s => ⟨?running, fun hrun => ⟨_, hostCancelSession_some.2 ⟨hrun, rfl⟩⟩⟩, fun s t h => ?effect,
    fun a s t h hout hin hout' hin' => ?onlyOne⟩
  case running =>
    rintro ⟨t, h⟩
    obtain ⟨hrun, -⟩ := hostCancelSession_some.1 h
    exact hrun
  case effect =>
    obtain ⟨-, rfl⟩ := hostCancelSession_some.1 h
    rw [stopIfRunning_outbound, stopIfRunning_inbound]
    exact ⟨rfl, rfl, rfl, rfl, rfl, rfl, rfl, rfl⟩
  case onlyOne =>
    by_contra ha
    rcases agentStep_keeps_a_loop ha h with hkeep | hkeep
    · simp [hkeep, hout] at hout'
    · simp [hkeep, hin] at hin'

end Sys2Proof.Machine
end

