-- ==== Sys2Proof/Proofs/EncodeDecode.lean ====
section
/-! SUPPORT. Encoding and decoding are inverse to each other, byte by byte and so on the stream (R53 to R60). -/

namespace Sys2Proof.Machine

open Sys2Proof

/-- A well-formed instruction is one byte, which decodes to it. UNKNOWN needs its byte outside the opcode map. -/
theorem encode_eq_singleton {i : Instr} (hwf : i.wf = true) : ∃ b, encode i = [b] ∧ decodeByte b = i := by
  cases i
  case unknown b => exact ⟨b, rfl, decodeByte_eq_unknown_iff.2 (of_decide_eq_true hwf)⟩
  all_goals exact ⟨_, rfl, rfl⟩

/-- The listed bytes decode to their rows, each of which encodes to its key. -/
theorem encode_decodeByte_of_mem : ∀ b ∈ definedBytes,
    (decodeByte b).wf = true ∧ encode (decodeByte b) = [b] := by decide

theorem encode_decodeByte (b : Byte) : (decodeByte b).wf = true ∧ encode (decodeByte b) = [b] := by
  by_cases hb : b ∈ definedBytes
  · exact encode_decodeByte_of_mem b hb
  · rw [decodeByte_eq_unknown_iff.2 hb]
    exact ⟨decide_eq_true hb, rfl⟩

/-- Settles O1: an instruction's encoding is one byte, and the decoder reads exactly one. -/
theorem decodeOfEncodeIsTheInstruction : Obligations.DecodeOfEncodeIsTheInstruction := by
  intro i rest hwf
  obtain ⟨b, henc, hdec⟩ := encode_eq_singleton hwf
  rw [henc, List.singleton_append, decode, hdec]

/-- Settles O2: the instruction is the decoded one; a byte outside the opcode map is its own UNKNOWN. -/
theorem everyByteDecodesAndEncodesBack : Obligations.EveryByteDecodesAndEncodesBack :=
  fun b _ => ⟨decodeByte b, rfl, encode_decodeByte b⟩

/-- Settles O5: the words are closed terms, and the decoder computes their instructions. -/
theorem wordsOfTheOpcodeMapDecode : Obligations.WordsOfTheOpcodeMapDecode :=
  ⟨rfl, rfl, rfl, rfl, rfl, rfl, rfl, rfl, rfl, rfl⟩

end Sys2Proof.Machine
end

