-- ==== Sys2Proof/Proofs/PureTick.lean ====
section
/-! SUPPORT. The tick as the pure function R63 asks for: every tick applies `tickOut`, the answer of `engTick`. What a tick
does is then said by its answer: the pop, the push and the next registers, each by the byte at the head; and so are the
condition it starts in (R126) and the handshake ports (R32, R68). -/

namespace Sys2Proof.Machine

open Sys2Proof

variable {s t u : State}

/-! ### The answer of a tick -/

theorem tickOut_of_timer_ne_zero (h0 : s.eng.timer ≠ 0) :
    s.tickOut = ({ s.eng with timer := s.eng.timer - 1 }, false, none) := by
  rw [State.tickOut, engTick, if_pos h0]

theorem tickOut_of_nil (h0 : s.eng.timer = 0) (hq : s.cmd_q = []) : s.tickOut = (s.eng, false, none) := by
  simp [State.tickOut, engTick, h0, State.view, cmdHead_nil hq]

theorem tickOut_of_head {b : Byte} (h0 : s.eng.timer = 0) (hb : s.cmd_q.head? = some b) :
    s.tickOut = classAct s.cfg s.eng s.smpSpace s.env.tdo_i (cls b) := by
  simp [State.tickOut, engTick, h0, State.view, State.cmdHead, hb]

/-- An answer that keeps the registers, pops nothing and pushes nothing leaves the state. -/
theorem apply_same (s : State) : s.apply (s.eng, false, none) = s := by
  simp [State.apply]

/-- Every tick answers a next state: the pure function's answer, applied (R63). -/
theorem engStep_eq_apply (s : State) : engStep s = .next (s.apply s.tickOut) := by
  by_cases h0 : s.eng.timer = 0
  · cases hq : s.cmd_q with
    | nil => rw [tickOut_of_nil h0 hq, apply_same, engStep_of_fetch_none h0 (fetch_nil hq)]
    | cons b q =>
      have hb : s.cmd_q.head? = some b := by rw [hq, List.head?_cons]
      rw [engStep_of_cmd_q_cons h0 hq, tickOut_of_head h0 hb]
  · rw [tickOut_of_timer_ne_zero h0, engStep_of_timer_ne_zero h0]
    simp [State.apply, timerDecr]

theorem engStep_next (h : engStep s = .next t) : t = s.apply s.tickOut :=
  Host.Outcome.next.inj (h.symm.trans (engStep_eq_apply s))

/-! ### The stream and the sample channel after an answer -/

theorem apply_cmd_q (s : State) (o) : (s.apply o).cmd_q = s.cmd_q.drop o.2.1.toNat := by
  cases h : o.2.1 <;> simp [State.apply, h]

theorem apply_pos (s : State) (o) : (s.apply o).pos = s.pos + o.2.1.toNat := by
  cases h : o.2.1 <;> simp [State.apply, h]

theorem apply_smp_q (s : State) (o) : (s.apply o).smp_q = s.smp_q ++ o.2.2.toList := rfl

/-- A tick leaves the configuration, the bridge, the network and the schedule alone (R63). -/
theorem engStep_frame (h : engStep s = .next t) :
    t.cfg = s.cfg ∧ t.br = s.br ∧ t.net = s.net ∧ t.env = s.env := by
  rw [engStep_next h]
  exact ⟨rfl, rfl, rfl, rfl⟩

/-! ### The pop and the push -/

/-- A tick pops exactly where it looks at a head byte whose class is consumed (R66). -/
theorem tickOut_pop_iff : s.tickOut.2.1 = true ↔
    s.eng.timer = 0 ∧ ∃ b, s.cmd_q.head? = some b ∧ cls b ≠ .unknown ∧ (cls b = .read → s.smpSpace = true) := by
  by_cases h0 : s.eng.timer = 0
  · cases hb : s.cmd_q.head? with
    | none => simp [tickOut_of_nil h0 (List.head?_eq_none_iff.1 hb)]
    | some b => simp [tickOut_of_head h0 hb, classAct_pop, h0]
  · simp [tickOut_of_timer_ne_zero h0, h0]

/-- The opcode map has one READ (R55). -/
theorem cls_eq_read_iff : ∀ b : Byte, cls b = .read ↔ b = 0x52#8 := by decide

/-- A tick pushes exactly where it runs a READ with space, and what it pushes is its sample (R85). -/
theorem tickOut_push_iff {b : Byte} : s.tickOut.2.2 = some b ↔
    s.eng.timer = 0 ∧ s.cmd_q.head? = some 0x52#8 ∧ s.smpSpace = true ∧ sampleByte s.env.tdo_i = b := by
  by_cases h0 : s.eng.timer = 0
  · cases hb : s.cmd_q.head? with
    | none => simp [tickOut_of_nil h0 (List.head?_eq_none_iff.1 hb)]
    | some c => simp [tickOut_of_head h0 hb, classAct_push_eq_some, h0, cls_eq_read_iff]
  · simp [tickOut_of_timer_ne_zero h0, h0]

/-- A class that does not consume its byte does nothing at all: the wedge, and READ without space (R86, R97). -/
theorem classAct_of_no_pop {c : Config} {r : EngState} {space : Bool} {tdo : Bit} {k : CmdClass}
    (hpop : (classAct c r space tdo k).2.1 = false) : classAct c r space tdo k = (r, false, none) := by
  obtain rfl | ⟨rfl, rfl⟩ := classAct_no_pop_iff.1 hpop <;> rfl

/-- At 0 the countdown changes nothing. -/
theorem countdown_of_zero {r : EngState} (h0 : r.timer = 0) : { r with timer := r.timer - 1 } = r := by
  rw [h0, Nat.zero_sub, ← h0]

/-- A tick that pops nothing only counts the timer down, which at 0 is nothing. -/
theorem tickOut_of_no_pop (hpop : s.tickOut.2.1 = false) :
    s.tickOut = ({ s.eng with timer := s.eng.timer - 1 }, false, none) := by
  by_cases h0 : s.eng.timer = 0
  · rw [countdown_of_zero h0]
    cases hb : s.cmd_q.head? with
    | none => exact tickOut_of_nil h0 (List.head?_eq_none_iff.1 hb)
    | some b =>
      rw [tickOut_of_head h0 hb] at hpop ⊢
      exact classAct_of_no_pop hpop
  · exact tickOut_of_timer_ne_zero h0

/-- The answer depends on the configuration, the registers, the head byte, the sink's space and the draw alone. -/
theorem tickOut_congr (hcfg : s.cfg = u.cfg) (heng : s.eng = u.eng) (hhead : s.cmd_q.head? = u.cmd_q.head?)
    (hspace : s.smpSpace = u.smpSpace) (htdo : s.env.tdo_i = u.env.tdo_i) : s.tickOut = u.tickOut := by
  rw [State.tickOut, State.tickOut, State.view, State.view, State.cmdHead, State.cmdHead, hcfg, heng, hhead, hspace, htdo]

/-! ### The pure function -/

/-- Settles O13: the tick applies the answer of `engTick`, form by form. -/
theorem theTickIsThePureEngineFunction : Obligations.TheTickIsThePureEngineFunction :=
  engStep_eq_apply

/-- Settles O14: both states have the same answer, and an answer says what it pops and pushes. -/
theorem theEngineDependsOnlyOnItsInputs : Obligations.TheEngineDependsOnlyOnItsInputs := by
  intro s u tdo hcfg heng hhead hspace
  have hout : (u.drawTdo tdo).tickOut = (s.drawTdo tdo).tickOut :=
    (tickOut_congr (s := s.drawTdo tdo) (u := u.drawTdo tdo) hcfg heng hhead hspace rfl).symm
  refine ⟨_, _, (s.drawTdo tdo).tickOut.2.2.toList, (s.drawTdo tdo).tickOut.2.1.toNat, engStep_eq_apply _,
    engStep_eq_apply _, ?_⟩
  rw [hout]
  exact ⟨rfl, rfl, rfl, apply_cmd_q .., apply_cmd_q .., apply_pos .., apply_pos ..⟩

/-! ### The conditions -/

/-- A byte is consumed exactly where its condition is `RUN` (R67). -/
theorem headCond_eq_RUN_iff {space : Bool} {k : CmdClass} :
    headCond space k = .RUN ↔ k ≠ .unknown ∧ (k = .read → space = true) := by
  cases k <;> cases space <;> simp [headCond]

theorem headCond_eq_BACKPRESSURE_iff {space : Bool} {k : CmdClass} :
    headCond space k = .BACKPRESSURE ↔ k = .read ∧ space = false := by
  cases k <;> cases space <;> simp [headCond]

theorem headCond_eq_WEDGED_iff {space : Bool} {k : CmdClass} : headCond space k = .WEDGED ↔ k = .unknown := by
  cases k <;> cases space <;> simp [headCond]

/-- A byte's condition is neither of the two waits that have no byte to look at. -/
theorem headCond_ne_waits (space : Bool) (k : CmdClass) :
    headCond space k ≠ .TIMER_WAIT ∧ headCond space k ≠ .IDLE := by
  cases k <;> cases space <;> simp [headCond]

theorem tickCond_of_timer_ne_zero (h0 : s.eng.timer ≠ 0) : s.tickCond = .TIMER_WAIT := by
  rw [State.tickCond, if_pos h0]

theorem tickCond_of_nil (h0 : s.eng.timer = 0) (hb : s.cmd_q.head? = none) : s.tickCond = .IDLE := by
  simp [State.tickCond, State.cmdHead, h0, hb]

theorem tickCond_of_head {b : Byte} (h0 : s.eng.timer = 0) (hb : s.cmd_q.head? = some b) :
    s.tickCond = headCond s.smpSpace (cls b) := by
  simp [State.tickCond, State.cmdHead, h0, hb]

theorem tickCond_eq_TIMER_WAIT_iff : s.tickCond = .TIMER_WAIT ↔ s.eng.timer ≠ 0 := by
  refine ⟨fun h h0 => ?_, tickCond_of_timer_ne_zero⟩
  cases hb : s.cmd_q.head? with
  | none => simp [tickCond_of_nil h0 hb] at h
  | some b => exact (headCond_ne_waits _ _).1 ((tickCond_of_head h0 hb).symm.trans h)

theorem tickCond_eq_IDLE_iff : s.tickCond = .IDLE ↔ s.eng.timer = 0 ∧ s.cmd_q = [] := by
  by_cases h0 : s.eng.timer = 0
  · cases hb : s.cmd_q.head? with
    | none => simp [tickCond_of_nil h0 hb, h0, List.head?_eq_none_iff.1 hb]
    | some b =>
      have hne : s.cmd_q ≠ [] := List.ne_nil_of_mem (List.mem_of_mem_head? hb)
      simp [tickCond_of_head h0 hb, (headCond_ne_waits _ _).2, hne]
  · simp [tickCond_of_timer_ne_zero h0, h0]

/-- The other three conditions are conditions of the head byte at timer 0. -/
theorem tickCond_eq_iff_head {c : TickCond} (htimer : c ≠ .TIMER_WAIT) (hidle : c ≠ .IDLE) :
    s.tickCond = c ↔ s.eng.timer = 0 ∧ ∃ b, s.cmd_q.head? = some b ∧ headCond s.smpSpace (cls b) = c := by
  by_cases h0 : s.eng.timer = 0
  · cases hb : s.cmd_q.head? with
    | none => simp [tickCond_of_nil h0 hb, hidle.symm]
    | some b => simp [tickCond_of_head h0 hb, h0]
  · simp [tickCond_of_timer_ne_zero h0, h0, htimer.symm]

theorem tickCond_eq_BACKPRESSURE_iff : s.tickCond = .BACKPRESSURE ↔
    s.eng.timer = 0 ∧ s.cmd_q.head? = some 0x52#8 ∧ s.smpSpace = false := by
  rw [tickCond_eq_iff_head (by simp) (by simp)]
  simp [headCond_eq_BACKPRESSURE_iff, cls_eq_read_iff]

theorem tickCond_eq_WEDGED_iff : s.tickCond = .WEDGED ↔ Wedged s := by
  rw [tickCond_eq_iff_head (by simp) (by simp)]
  simp [headCond_eq_WEDGED_iff]

/-- `RUN` is the condition of exactly the ticks that pop. -/
theorem tickCond_eq_RUN_iff : s.tickCond = .RUN ↔ s.tickOut.2.1 = true := by
  rw [tickCond_eq_iff_head (by simp) (by simp), tickOut_pop_iff]
  simp [headCond_eq_RUN_iff]

/-- Settles O15: `RUN` is the condition of the ticks that pop, and a tick that pops nothing only counts down. -/
theorem tickConditionsSayWhatTheTickDoes : Obligations.TickConditionsSayWhatTheTickDoes := by
  intro s t h
  rw [engStep_next h]
  refine ⟨tickCond_eq_TIMER_WAIT_iff, tickCond_eq_IDLE_iff, tickCond_eq_BACKPRESSURE_iff, tickCond_eq_WEDGED_iff, ?_,
    fun hrun => ?_⟩
  · rw [tickCond_eq_RUN_iff, apply_pos]
    cases s.tickOut.2.1 <;> simp
  · rw [Ne, tickCond_eq_RUN_iff, Bool.not_eq_true] at hrun
    rw [tickOut_of_no_pop hrun]
    simp [State.apply]

/-! ### The handshake ports -/

@[simp] theorem portBit_eq_one_iff : ∀ x : Bool, portBit x = 1#1 ↔ x = true := by decide

/-- Settles O59: the enables are the tick's pop and push, and the pins are the registers. -/
theorem handshakePortsReportTheTick : Obligations.HandshakePortsReportTheTick := by
  intro s t h
  rw [engStep_next h]
  simp only [State.cmd_en, State.smp_en, State.cmd_rdy, State.smp_rdy, State.cmd_data, State.smp_data, State.cmdHead,
    ne_eq, portBit_eq_one_iff, Bool.not_eq_true]
  refine ⟨?pos, fun hpop => ?consumed, fun hpop => ?kept, ?pushed, fun hpush => ?sample, rfl, rfl, rfl,
    fun hpin => if_pos hpin, fun hpin => if_pos hpin, fun hpin => if_pos hpin⟩
  case pos =>
    rw [apply_pos]
    cases s.tickOut.2.1 <;> simp
  case consumed =>
    obtain ⟨-, b, hb, -⟩ := tickOut_pop_iff.1 hpop
    obtain ⟨q, hq⟩ := List.head?_eq_some_iff.1 hb
    simp [apply_cmd_q, hpop, hq]
  case kept => simp [apply_cmd_q, hpop]
  case pushed =>
    rw [apply_smp_q]
    cases s.tickOut.2.2 <;> simp
  case sample =>
    obtain ⟨b, hb⟩ := Option.isSome_iff_exists.1 hpush
    obtain ⟨-, hhead, hspace, rfl⟩ := tickOut_push_iff.1 hb
    rw [apply_smp_q, hb]
    exact ⟨hspace, hhead, rfl, rfl⟩

end Sys2Proof.Machine
end

