-- ==== Sys2Proof/Proofs/StepOutcomes.lean ====
section
/-! SUPPORT. What one step answers: the instruction a ready engine runs (R63), the three refusals (R14, R141,
R143), and the two events outside a session (R141, R143). -/

namespace Sys2Proof.Machine

open Sys2Proof

variable {s t : State}

/-! ### The step of a ready engine -/

/-- A step whose event is a tick, with timer 0 and an instruction at the head, is that instruction. -/
theorem step_of_fetch {tdo : Bit} {i : Instr} (hadm : s.cfg.Admitted) (hev : s.nextEvent = .eng tdo)
    (h0 : s.eng.timer = 0) (hf : s.fetch = some i) : step s = exec i (s.takeEvent.drawTdo tdo) := by
  have hadm' : s.takeEvent.cfg.Admitted := hadm
  rw [step, hev, stepEvent_eng hadm']
  exact engStep_of_fetch (s := s.takeEvent.drawTdo tdo) h0 hf

/-- Settles O6: the event is the schedule's first entry, and a free tick where there is none. -/
theorem aStepRunsTheDecodedInstruction : Obligations.AStepRunsTheDecodedInstruction := by
  intro s i rest hadm h0 hdec
  have hf := fetch_of_decode hdec
  refine ⟨fun tdo es hs => ?_, fun hs => ?_⟩
  · rw [step_of_fetch hadm (by rw [State.nextEvent, hs]) h0 hf]
    simp [State.takeEvent, State.drawTdo, hs]
  · rw [step_of_fetch hadm (by rw [State.nextEvent, hs]) h0 hf]
    simp [State.takeEvent, State.drawTdo, hs]

/-! ### A placed word -/

/-- A table word of eight bits is one byte of the stream. -/
theorem tableBytes_eight (w : Nat) : tableBytes 8 w = [BitVec.ofNat 8 w] := by
  simp [tableBytes]

theorem withFetchWord_cmd_q (s : State) (w : Nat) :
    (s.withFetchWord 8 w).cmd_q = BitVec.ofNat 8 w :: s.cmd_q.tail := by
  simp [State.withFetchWord, State.readyToFetch, State.withCmdHead, tableBytes_eight]

theorem decodeTableWord_eight (w : Nat) : decodeTableWord 8 w = some (decodeByte (BitVec.ofNat 8 w)) := by
  rw [decodeTableWord, tableBytes_eight, decode]

/-- Settles O7: the placed state is ready, with the word's byte at its head, and the step takes its one event off. -/
theorem aPlacedWordRunsNext : Obligations.APlacedWordRunsNext := by
  intro s w i hadm hdec
  rw [decodeTableWord_eight] at hdec
  have hf : (s.withFetchWord 8 w).fetch = some i := (fetch_cons (withFetchWord_cmd_q s w)).trans hdec
  rw [step_of_fetch (s := s.withFetchWord 8 w) (tdo := Config.freeTdo s.env.tick) hadm rfl rfl hf]
  simp [State.withFetchWord, State.readyToFetch, State.withCmdHead, State.takeEvent, State.drawTdo, tableBytes_eight]

/-! ### The refusals -/

theorem applyReset_of_running (hrun : s.br.sess.isEnded = false) (init : Signals) :
    applyReset init s = .refused .resetDuringSession := by
  cases hs : s.br.sess with
  | Active | Ending => simp only [applyReset, hs]
  | Ended r => simp [hs, Sess.isEnded] at hrun

theorem applyReset_of_ended (hend : s.br.sess.isEnded = true) (init : Signals) :
    applyReset init s = .next (resetEngine init s) := by
  cases hs : s.br.sess with
  | Active | Ending => simp [hs, Sess.isEnded] at hend
  | Ended r => simp only [applyReset, hs]

theorem stepEvent_of_not_admitted (hadm : ¬ s.cfg.Admitted) (e : Event) :
    stepEvent e s = .refused .configNotAdmitted :=
  if_neg hadm

/-- Every event but a reset and a launch is answered with a next state. -/
theorem stepEvent_inside {e : Event} (hadm : s.cfg.Admitted) (hin : e.isOutside = false) :
    ∃ t, stepEvent e s = .next t := by
  cases e with
  | eng tdo => exact ⟨_, (stepEvent_eng hadm tdo).trans (engStep_eq_apply _)⟩
  | agent a => exact ⟨_, stepEvent_agent hadm a⟩
  | reset init => cases hin
  | launch => cases hin

/-- What is refused, and why (R14, R141, R143). -/
theorem stepEvent_refused {e : Event} {r : Refusal} (h : stepEvent e s = .refused r) :
    (r = .configNotAdmitted ∧ ¬ s.cfg.Admitted) ∨
    (r = .resetDuringSession ∧ e.isReset = true ∧ s.br.sess.isEnded = false) ∨
    (r = .launchPremiseFails ∧ e = .launch ∧ ¬ LaunchPremise s) := by
  by_cases hadm : s.cfg.Admitted
  · right
    cases e with
    | eng tdo =>
      rw [stepEvent_eng hadm, engStep_eq_apply] at h
      cases h
    | agent a =>
      rw [stepEvent_agent hadm] at h
      cases h
    | reset init =>
      rw [stepEvent_reset hadm] at h
      cases hend : s.br.sess.isEnded with
      | true =>
        rw [applyReset_of_ended hend] at h
        cases h
      | false =>
        rw [applyReset_of_running hend] at h
        cases h
        exact .inl ⟨rfl, rfl, rfl⟩
    | launch =>
      rw [stepEvent_launch hadm, launchSession] at h
      split at h
      case isTrue => cases h
      case isFalse hpremise =>
        cases h
        exact .inr ⟨rfl, rfl, hpremise⟩
  · rw [stepEvent_of_not_admitted hadm] at h
    cases h
    exact .inl ⟨rfl, hadm⟩

/-- Settles O8: a tick and an agent's turn always answer, and a refusal is one of the three. -/
theorem theBlockNeverHalts : Obligations.TheBlockNeverHalts :=
  ⟨fun _ hadm hin => stepEvent_inside hadm hin, fun _ f => (nomatch f), fun s _ h => stepEvent_refused (s := s.takeEvent) h⟩

/-- Settles O9: each of the seven defects breaks one bound of an admitted configuration. -/
theorem anInadmissibleConfigurationIsRefused : Obligations.AnInadmissibleConfigurationIsRefused := by
  intro s hdefect
  have hnot : ¬ s.takeEvent.cfg.Admitted := by
    rintro ⟨hP, hU, hcmd, hsmp, hrecv, hread, htimer⟩
    simp only [takeEvent_cfg, Config.TMAX] at hP hU hcmd hsmp hrecv hread htimer
    omega
  exact stepEvent_of_not_admitted hnot _

/-! ### Reset and launch -/

theorem stepEvent_reset_of_ended (hadm : s.cfg.Admitted) (hend : s.br.sess.isEnded = true) (init : Signals) :
    stepEvent (.reset init) s = .next (resetEngine init s) :=
  (stepEvent_reset hadm init).trans (applyReset_of_ended hend init)

theorem stepEvent_launch_of_premise (hadm : s.cfg.Admitted) (hpremise : LaunchPremise s) :
    stepEvent .launch s = .next { s with br := Bridge.atLaunch, net := Net.atLaunch } := by
  rw [stepEvent_launch hadm, launchSession, if_pos hpremise]

/-- After a reset only the bridge's own clauses of the launch premise are left to ask. -/
theorem launchPremise_resetEngine (hend : s.br.sess.isEnded = true) (hbuf : s.br.hbuf = []) (init : Signals) :
    LaunchPremise (resetEngine init s) :=
  ⟨hend, rfl, rfl, rfl, rfl, hbuf⟩

/-- Settles O56: by whether the session has ended. -/
theorem resetOutsideASessionRestoresTheEngine : Obligations.ResetOutsideASessionRestoresTheEngine :=
  fun _ init hadm => ⟨fun hend => stepEvent_reset_of_ended hadm hend init,
    fun hrun => (stepEvent_reset hadm init).trans (applyReset_of_running hrun init)⟩

/-- Settles O57: a launch state by its fields; a reset meets the premise that the launch event asks for. -/
theorem aSessionStartsFromTheLaunchPremise : Obligations.ASessionStartsFromTheLaunchPremise := by
  refine ⟨fun cfg init => ⟨_, rfl, rfl, rfl, rfl, rfl, rfl, rfl, rfl, rfl⟩, rfl, fun s init hadm hend hbuf => ?_⟩
  have hlaunch := stepEvent_launch_of_premise (s := resetEngine init s) hadm (launchPremise_resetEngine hend hbuf init)
  rw [runEvents_cons_of_next (stepEvent_reset_of_ended hadm hend init), runEvents_cons_of_next hlaunch]
  rfl

end Sys2Proof.Machine
end

