-- ==== Sys2Proof/Proofs/InstructionFrames.lean ====
section
/-! SUPPORT. What an instruction leaves unchanged, and which parameters it depends on: the two signal groups with their
writers (R18, R19), READ without space (R86), the sleeps (R91, R92), and the pins (R33, R34). -/

namespace Sys2Proof.Machine

open Sys2Proof

variable {s t : State}

/-! ### The frame of every instruction -/

/-- Settles O24: an instruction applies its class's act, which pops or does nothing; only READ pushes, and it writes no
register. -/
theorem instructionsTouchOnlyTheEngineAndItsChannels : Obligations.InstructionsTouchOnlyTheEngineAndItsChannels := by
  intro i s
  refine ⟨_, exec_eq_apply i s, rfl, rfl, rfl, rfl, ?stream, fun hread => ?samples, ?registers⟩
  case stream =>
    cases hpop : (classAct s.cfg s.eng s.smpSpace s.env.tdo_i i.cls).2.1 with
    | true => exact .inl (apply_of_pop hpop)
    | false => exact .inr (by rw [classAct_of_no_pop hpop, apply_same])
  case samples =>
    have hnone : (classAct s.cfg s.eng s.smpSpace s.env.tdo_i i.cls).2.2 = none := by
      refine Option.eq_none_iff_forall_ne_some.2 fun b hb => hread ?_
      obtain ⟨hcls, -⟩ := classAct_push_eq_some.1 hb
      cases i <;> simp [Instr.cls] at hcls ⊢
    rw [apply_smp_q, hnone, Option.toList_none, List.append_nil]
  case registers =>
    rintro rfl
    exact classAct_read_eng ..

/-! ### READ without space, and the sleeps -/

/-- Settles O19: without space READ is the identity, and so is the tick that finds it at the head. -/
theorem readWithoutSpaceStalls : Obligations.ReadWithoutSpaceStalls := by
  refine fun s hfull => ⟨exec_read_of_full hfull, fun h0 hb => ?_⟩
  rw [engStep_of_fetch h0 (fetch_of_head hb)]
  exact exec_read_of_full hfull

/-- Settles O21: a sleep arms, then pops; `TMAX` bounds both arms. -/
theorem sleepCommandsArmTheTimer : Obligations.SleepCommandsArmTheTimer := by
  refine ⟨fun s => ⟨rfl, rfl⟩, fun c => ?_, rfl, rfl⟩
  obtain ⟨-, hlong, hshort⟩ := arms_le_TMAX c
  exact ⟨hlong, hshort, fun hU => by rw [hU]⟩

/-! ### The two signal groups -/

/-- Only the drive class writes the JTAG signals (R18). -/
theorem classAct_jtag_of_ne {k : CmdClass} (hk : ∀ v, k ≠ .drv v) (c : Config) (r : EngState) (space : Bool) (tdo : Bit) :
    (classAct c r space tdo k).1.tck = r.tck ∧ (classAct c r space tdo k).1.tms = r.tms ∧
      (classAct c r space tdo k).1.tdi = r.tdi := by
  cases k with
  | drv v => exact absurd rfl (hk v)
  | read => simp [classAct_read_eng]
  | rst _ | blink _ | sleepLong | sleepShort | quit | unknown => exact ⟨rfl, rfl, rfl⟩

/-- Only the reset class writes the reset signals (R19). -/
theorem classAct_resets_of_ne {k : CmdClass} (hk : ∀ rv, k ≠ .rst rv) (c : Config) (r : EngState) (space : Bool)
    (tdo : Bit) :
    (classAct c r space tdo k).1.srst_o = r.srst_o ∧ (classAct c r space tdo k).1.trst_o = r.trst_o := by
  cases k with
  | rst rv => exact absurd rfl (hk rv)
  | read => simp [classAct_read_eng]
  | drv _ | blink _ | sleepLong | sleepShort | quit | unknown => exact ⟨rfl, rfl⟩

/-- A tick whose head is no drive command leaves the JTAG signals. -/
theorem engStep_keeps_jtag (hdrv : ∀ i v, s.fetch = some i → i.cls = .drv v → s.eng.timer ≠ 0)
    (h : engStep s = .next t) : t.eng.tck = s.eng.tck ∧ t.eng.tms = s.eng.tms ∧ t.eng.tdi = s.eng.tdi := by
  obtain ⟨-, hs⟩ | ⟨-, -, hs⟩ | ⟨h0, i, hf, hs⟩ := engStep_cases s <;> rw [hs] at h
  · cases h
    exact ⟨rfl, rfl, rfl⟩
  · cases h
    exact ⟨rfl, rfl, rfl⟩
  · rw [exec_next_eng h]
    exact classAct_jtag_of_ne (fun v hv => hdrv i v hf hv h0) ..

/-- A tick whose head is no reset command leaves the reset signals. -/
theorem engStep_keeps_resets (hrst : ∀ i rv, s.fetch = some i → i.cls = .rst rv → s.eng.timer ≠ 0)
    (h : engStep s = .next t) : t.eng.srst_o = s.eng.srst_o ∧ t.eng.trst_o = s.eng.trst_o := by
  obtain ⟨-, hs⟩ | ⟨-, -, hs⟩ | ⟨h0, i, hf, hs⟩ := engStep_cases s <;> rw [hs] at h
  · cases h
    exact ⟨rfl, rfl⟩
  · cases h
    exact ⟨rfl, rfl⟩
  · rw [exec_next_eng h]
    exact classAct_resets_of_ne (fun rv hrv => hrst i rv hf hrv h0) ..

/-- Settles O25: each group is one class's to write, whole; no event but a tick and a reset writes a register. -/
theorem signalGroupsHaveTheirOwnWriters : Obligations.SignalGroupsHaveTheirOwnWriters := by
  refine ⟨fun i v s t hcls h => ?_, fun i rv s t hcls h => ?_,
    fun s t h => ⟨fun hdrv => engStep_keeps_jtag hdrv h, fun hrst => engStep_keeps_resets hrst h⟩,
    fun e s t htick hreset h => ?_, fun s => ⟨rfl, rfl⟩⟩
  · rw [exec_next_eng h, hcls]
    exact ⟨rfl, rfl, rfl⟩
  · rw [exec_next_eng h, hcls]
    exact ⟨rfl, rfl⟩
  · rw [stepEvent_keeps_eng htick hreset h]
    exact ⟨rfl, rfl, rfl, rfl, rfl⟩

/-! ### The pins -/

/-- An inverted pin shows the complement of its register (R13). -/
theorem pinLevel_eq_ite : ∀ (r : Bit) (inv : Bool), pinLevel r inv = if inv then ~~~r else r := by decide

/-- A pin shows its register with its polarity, where the platform has it (R33, R34). -/
theorem ifPresent_pinLevel (has inv : Bool) (x : Bit) :
    ifPresent has (pinLevel x inv) = if has then some (if inv then ~~~x else x) else none := by
  rw [ifPresent, pinLevel_eq_ite]

/-- Of the configuration a class's act reads only the two arm parameters. -/
theorem classAct_congr_cfg {c c' : Config} (hP : c'.P = c.P) (hU : c'.U = c.U) (r : EngState) (space : Bool) (tdo : Bit)
    (k : CmdClass) : classAct c' r space tdo k = classAct c r space tdo k := by
  cases k <;> simp only [classAct, driveArm, sleepLongArm, sleepShortArm, hP, hU]

/-- Settles O58: the pins are the registers with their polarity; no act reads which pins there are. -/
theorem pinsShowTheRegisters : Obligations.PinsShowTheRegisters := by
  refine ⟨fun s => ⟨rfl, rfl, rfl, ifPresent_pinLevel .., ifPresent_pinLevel .., ifPresent_pinLevel ..⟩,
    fun i s t c h hP hU hdepth => ?_⟩
  have hspace : ({ s with cfg := c } : State).smpSpace = s.smpSpace := by
    simp only [State.smpSpace, hdepth]
  rw [exec_eq_apply, Host.Outcome.next.injEq] at h
  rw [exec_eq_apply, hspace, classAct_congr_cfg hP hU, ← h]
  rfl

end Sys2Proof.Machine
end

