-- ==== Sys2Proof/Proofs/AgentEffects.lean ====
section
/-! SUPPORT. What a step of an agent can do, said once. A step that may lose bytes is one of five interventions: a loop's
error, an absorbed cancellation, the supervisor's stop, the session's cancellation, the loss of the residue. The other
steps move bytes and leave the session as it is. -/

namespace Sys2Proof.Machine

open Sys2Proof

variable {s t : State} {a : AgentStep}

/-! ### The steps that may lose bytes -/

/-- The state a session cancellation leaves (R121). -/
def cancelSession (s : State) : State :=
  { s with br := { s.br with
      out_st := if s.br.out_st.isStopped then s.br.out_st else .Stopped .SESSION_CANCELLED
      in_st := if s.br.in_st.isStopped then s.br.in_st else .Stopped .SESSION_CANCELLED
      first_err := some (s.br.firstErr .SESSION_CANCELLED)
      sess := .Ended (s.br.firstErr .SESSION_CANCELLED) } }

/-- The interventions, each with the guard the invariants need (R116 to R122). -/
inductive Intervenes (s : State) : State → Prop where
  | raise (l : Loop) (r : Reason) (hrun : s.br.stopped l = false) : Intervenes s (raiseLoop l r s)
  | absorb (l : Loop) (eff : AbsorbEffect) (hrun : s.br.stopped l = false) : Intervenes s (absorbCancel l eff s)
  | supOutbound (hsess : s.br.sess = .Ending) (hout : s.br.out_st.isStopped = false)
      (hin : s.br.in_st.isStopped = true) : Intervenes s (cancelSurvivor .outbound s)
  | supInbound (hsess : s.br.sess = .Ending) (hout : s.br.out_st.isStopped = true)
      (hin : s.br.in_st.isStopped = false) : Intervenes s (cancelSurvivor .inbound s)
  | cancel (hsess : s.br.sess.isEnded = false) : Intervenes s (cancelSession s)
  | residue (hsess : s.br.sess.isEnded = true) : Intervenes s { s with br := { s.br with hbuf := [] } }

theorem intervenes_of_mayLose (hlose : a.mayLose = true) (h : agentStep a s = some t) : Intervenes s t := by
  cases a <;> simp only [agentStep, AgentStep.mayLose, Bool.false_eq_true] at h hlose
  case outNetError =>
    obtain ⟨hst, -, rfl⟩ := outNetError_some.1 h
    exact .raise .outbound _ (congrArg OutSt.isStopped hst)
  case outNetEof =>
    obtain ⟨hst, -, rfl⟩ := outNetEof_some.1 h
    exact .raise .outbound _ (congrArg OutSt.isStopped hst)
  case outIfaceError =>
    obtain ⟨⟨c, hst⟩ | hst, rfl⟩ := outIfaceError_some.1 h <;>
      exact .raise .outbound _ (congrArg OutSt.isStopped hst)
  case inNetError =>
    obtain ⟨⟨c, hst⟩, -, rfl⟩ := inNetError_some.1 h
    exact .raise .inbound _ (congrArg InSt.isStopped hst)
  case inIfaceError =>
    obtain ⟨hst, rfl⟩ := inIfaceError_some.1 h
    exact .raise .inbound _ (congrArg InSt.isStopped hst)
  case sup =>
    obtain ⟨hsess, ⟨hout, hin, rfl⟩ | ⟨hout, hin, rfl⟩⟩ := sup_some.1 h
    · exact .supOutbound hsess hout hin
    · exact .supInbound hsess hout hin
  case hostCancelIter l eff =>
    obtain ⟨-, hrun, rfl⟩ := hostCancelIter_some.1 h
    split
    · exact .absorb l eff hrun
    · exact .raise l _ hrun
  case hostCancelSession =>
    obtain ⟨hsess, rfl⟩ := hostCancelSession_some.1 h
    rw [stopIfRunning_outbound, stopIfRunning_inbound]
    exact .cancel hsess
  case loseResidue =>
    obtain ⟨hsess, rfl⟩ := loseResidue_some.1 h
    exact .residue hsess

/-! ### What an intervention does to the bytes -/

/-- From `s` to `t` bytes may be lost, and none is moved or made: the channels and the network hold what they held. -/
structure OnlyLoses (s t : State) : Prop where
  cmd_q : t.cmd_q = s.cmd_q
  smp_q : t.smp_q = s.smp_q
  net : t.net = s.net
  hbuf : t.br.hbuf.Sublist s.br.hbuf
  outChunk : t.br.out_st.chunk.Sublist s.br.out_st.chunk
  inChunk : t.br.in_st.chunk.Sublist s.br.in_st.chunk

theorem OnlyLoses.refl (s : State) : OnlyLoses s s :=
  ⟨rfl, rfl, rfl, .refl _, .refl _, .refl _⟩

theorem restartLoop_onlyLoses (l : Loop) (s : State) : OnlyLoses s (restartLoop l s) := by
  refine ⟨by simp, by simp, by simp, by simp, ?_, ?_⟩ <;> cases l
  · cases hst : s.br.out_st <;> simp [restartLoop, hst, OutSt.chunk]
  · rw [restart_inbound_out_st]
  · rw [restart_outbound_in_st]
  · cases hst : s.br.in_st <;> simp [restartLoop, hst, InSt.chunk]

theorem Intervenes.onlyLoses (h : Intervenes s t) : OnlyLoses s t := by
  cases h with
  | raise l r =>
    cases l with
    | outbound => exact ⟨rfl, rfl, rfl, .refl _, List.nil_sublist _, .refl _⟩
    | inbound => exact ⟨rfl, rfl, rfl, .refl _, .refl _, List.nil_sublist _⟩
  | absorb l eff =>
    cases eff with
    | keep => exact .refl s
    | restart => exact restartLoop_onlyLoses l s
  | supOutbound => exact ⟨rfl, rfl, rfl, .refl _, List.nil_sublist _, .refl _⟩
  | supInbound => exact ⟨rfl, rfl, rfl, .refl _, .refl _, List.nil_sublist _⟩
  | cancel =>
    refine ⟨rfl, rfl, rfl, .refl _, ?_, ?_⟩
    · cases hst : s.br.out_st <;> simp [cancelSession, hst, OutSt.isStopped, OutSt.chunk]
    · cases hst : s.br.in_st <;> simp [cancelSession, hst, InSt.isStopped, InSt.chunk]
  | residue => exact ⟨rfl, rfl, rfl, List.nil_sublist _, .refl _, .refl _⟩

/-! ### The steps that only move bytes -/

/-- A step that loses nothing leaves the session and its record alone, and each loop where it is or, if it runs, running;
the flags of the network are only ever set. -/
structure KeepsSession (s t : State) : Prop where
  sess : t.br.sess = s.br.sess
  first_err : t.br.first_err = s.br.first_err
  out_st : t.br.out_st = s.br.out_st ∨ (s.br.out_st.isStopped = false ∧ t.br.out_st.isStopped = false)
  in_st : t.br.in_st = s.br.in_st ∨ (s.br.in_st.isStopped = false ∧ t.br.in_st.isStopped = false)
  net_closed : s.net.net_closed = true → t.net.net_closed = true
  net_broken : s.net.net_broken = true → t.net.net_broken = true

theorem keepsSession_of_lossless (hkeep : a.mayLose = false) (h : agentStep a s = some t) : KeepsSession s t := by
  cases a <;> simp only [agentStep, AgentStep.mayLose, Bool.true_eq_false] at h hkeep
  case outRecv k =>
    obtain ⟨hst, -, rfl⟩ := outRecv_some.1 h
    exact ⟨rfl, rfl, .inr ⟨congrArg OutSt.isStopped hst, rfl⟩, .inl rfl, id, id⟩
  case outWrite =>
    obtain ⟨c, hst, rfl⟩ := outWrite_some.1 h
    exact ⟨rfl, rfl, .inr ⟨congrArg OutSt.isStopped hst, rfl⟩, .inl rfl, id, id⟩
  case outFlush =>
    obtain ⟨hst, -, rfl⟩ := outFlush_some.1 h
    exact ⟨rfl, rfl, .inr ⟨congrArg OutSt.isStopped hst, rfl⟩, .inl rfl, id, id⟩
  case inRead k =>
    obtain ⟨hst, -, rfl⟩ := inRead_some.1 h
    exact ⟨rfl, rfl, .inl rfl, .inr ⟨congrArg InSt.isStopped hst, rfl⟩, id, id⟩
  case inSend =>
    obtain ⟨c, hst, -, rfl⟩ := inSend_some.1 h
    exact ⟨rfl, rfl, .inl rfl, .inr ⟨congrArg InSt.isStopped hst, rfl⟩, id, id⟩
  case xfer =>
    obtain ⟨b, rest, -, -, rfl⟩ := xfer_some.1 h
    exact ⟨rfl, rfl, .inl rfl, .inl rfl, id, id⟩
  case hostSend d =>
    obtain ⟨-, rfl⟩ := hostSend_some.1 h
    exact ⟨rfl, rfl, .inl rfl, .inl rfl, id, id⟩
  case hostClose =>
    obtain ⟨-, rfl⟩ := hostClose_some.1 h
    exact ⟨rfl, rfl, .inl rfl, .inl rfl, fun _ => rfl, id⟩
  case hostBreak =>
    obtain ⟨-, rfl⟩ := hostBreak_some.1 h
    exact ⟨rfl, rfl, .inl rfl, .inl rfl, id, fun _ => rfl⟩

/-- What an agent's step can do: it intervenes, or it moves bytes and keeps the session. -/
theorem agentStep_cases (h : agentStep a s = some t) :
    (a.mayLose = true ∧ Intervenes s t) ∨ (a.mayLose = false ∧ KeepsSession s t) := by
  cases hlose : a.mayLose with
  | true => exact .inl ⟨rfl, intervenes_of_mayLose hlose h⟩
  | false => exact .inr ⟨rfl, keepsSession_of_lossless hlose h⟩

/-! ### The writers -/

/-- Each place of the two flows has one writer among the agents: the transport moves the first byte of `hbuf` into the
command channel while there is room (R108), the inbound loop reads from the front of the sample channel (R111), its send
delivers (R113), and the outbound loop's write adds to `hbuf` (R106). -/
structure Writers (a : AgentStep) (s t : State) : Prop where
  cmd_q : t.cmd_q = s.cmd_q ∨
    (s.cmd_q.length < s.cfg.CMD_DEPTH ∧ ∃ b, s.br.hbuf.head? = some b ∧ t.cmd_q = s.cmd_q ++ [b])
  smp_q : t.smp_q = s.smp_q ∨ ∃ k, a = .inRead k ∧ s.br.in_st = .Read ∧ t.smp_q = s.smp_q.drop k
  net_tx : t.net.net_tx = s.net.net_tx ∨ ∃ c, s.br.in_st = .Send c
  hbuf : t.br.hbuf.Sublist s.br.hbuf ∨ ∃ c, s.br.out_st = .Write c

theorem OnlyLoses.writers (h : OnlyLoses s t) (a : AgentStep) : Writers a s t :=
  ⟨.inl h.cmd_q, .inl h.smp_q, .inl (congrArg Net.net_tx h.net), .inl h.hbuf⟩

theorem agentStep_writers (h : agentStep a s = some t) : Writers a s t := by
  cases hlose : a.mayLose with
  | true => exact (intervenes_of_mayLose hlose h).onlyLoses.writers a
  | false =>
    cases a <;> simp only [agentStep, AgentStep.mayLose, Bool.true_eq_false] at h hlose
    case outRecv k =>
      obtain ⟨-, -, rfl⟩ := outRecv_some.1 h
      exact ⟨.inl rfl, .inl rfl, .inl rfl, .inl (.refl _)⟩
    case outWrite =>
      obtain ⟨c, hst, rfl⟩ := outWrite_some.1 h
      exact ⟨.inl rfl, .inl rfl, .inl rfl, .inr ⟨c, hst⟩⟩
    case outFlush =>
      obtain ⟨-, -, rfl⟩ := outFlush_some.1 h
      exact ⟨.inl rfl, .inl rfl, .inl rfl, .inl (.refl _)⟩
    case inRead k =>
      obtain ⟨hst, -, rfl⟩ := inRead_some.1 h
      exact ⟨.inl rfl, .inr ⟨k, rfl, hst, rfl⟩, .inl rfl, .inl (.refl _)⟩
    case inSend =>
      obtain ⟨c, hst, -, rfl⟩ := inSend_some.1 h
      exact ⟨.inl rfl, .inl rfl, .inr ⟨c, hst⟩, .inl (.refl _)⟩
    case xfer =>
      obtain ⟨b, rest, hbuf, hroom, rfl⟩ := xfer_some.1 h
      refine ⟨.inr ⟨hroom, b, ?_, rfl⟩, .inl rfl, .inl rfl, .inl ?_⟩
      · rw [hbuf, List.head?_cons]
      · rw [hbuf]
        exact List.sublist_cons_self b rest
    case hostSend d =>
      obtain ⟨-, rfl⟩ := hostSend_some.1 h
      exact ⟨.inl rfl, .inl rfl, .inl rfl, .inl (.refl _)⟩
    case hostClose =>
      obtain ⟨-, rfl⟩ := hostClose_some.1 h
      exact ⟨.inl rfl, .inl rfl, .inl rfl, .inl (.refl _)⟩
    case hostBreak =>
      obtain ⟨-, rfl⟩ := hostBreak_some.1 h
      exact ⟨.inl rfl, .inl rfl, .inl rfl, .inl (.refl _)⟩

/-- Whatever the other agents do, the bytes in the command channel stay at its front. -/
theorem agentStep_cmd_q_extends (h : agentStep a s = some t) : s.cmd_q <+: t.cmd_q := by
  obtain hq | ⟨-, b, -, hq⟩ := (agentStep_writers h).cmd_q
  · exact ⟨[], by rw [hq, List.append_nil]⟩
  · exact ⟨[b], hq.symm⟩

/-! ### The two streams -/

/-- A step that loses nothing keeps both streams, but for the bytes the client sends (R45, R125). -/
theorem agentStep_lossless_streams (hkeep : a.mayLose = false) (h : agentStep a s = some t) :
    t.pendingCmds = s.pendingCmds ++ sentBy (.agent a) s ∧ t.sampleStream = s.sampleStream := by
  simp only [State.pendingCmds, State.sampleStream]
  cases a <;> simp only [agentStep, AgentStep.mayLose, Bool.true_eq_false] at h hkeep
  case outRecv k =>
    obtain ⟨hst, -, rfl⟩ := outRecv_some.1 h
    simp [hst, OutSt.chunk, sentBy]
  case outWrite =>
    obtain ⟨c, hst, rfl⟩ := outWrite_some.1 h
    simp [hst, OutSt.chunk, sentBy]
  case outFlush =>
    obtain ⟨hst, -, rfl⟩ := outFlush_some.1 h
    simp [hst, OutSt.chunk, sentBy]
  case inRead k =>
    obtain ⟨hst, -, rfl⟩ := inRead_some.1 h
    simp [hst, InSt.chunk, sentBy]
  case inSend =>
    obtain ⟨c, hst, -, rfl⟩ := inSend_some.1 h
    simp [hst, InSt.chunk, sentBy]
  case xfer =>
    obtain ⟨b, rest, hbuf, -, rfl⟩ := xfer_some.1 h
    simp [hbuf, sentBy]
  case hostSend d =>
    obtain ⟨⟨hopen, -⟩, rfl⟩ := hostSend_some.1 h
    simp [hopen, sentBy]
  case hostClose =>
    obtain ⟨-, rfl⟩ := hostClose_some.1 h
    simp [sentBy]
  case hostBreak =>
    obtain ⟨-, rfl⟩ := hostBreak_some.1 h
    simp [sentBy]

/-- Losing bytes leaves, in order, part of each stream. -/
theorem OnlyLoses.streams (h : OnlyLoses s t) :
    t.pendingCmds.Sublist s.pendingCmds ∧ t.sampleStream.Sublist s.sampleStream := by
  obtain ⟨hcmd, hsmp, hnet, hbuf, hout, hin⟩ := h
  rw [State.pendingCmds, State.pendingCmds, State.sampleStream, State.sampleStream, hcmd, hsmp, hnet]
  exact ⟨(((List.Sublist.refl _).append hbuf).append hout).append (.refl _),
    ((List.Sublist.refl _).append hin).append (.refl _)⟩

/-- No step makes, repeats or reorders a byte of either stream (R123). -/
theorem agentStep_streams (h : agentStep a s = some t) :
    t.pendingCmds.Sublist (s.pendingCmds ++ sentBy (.agent a) s) ∧ t.sampleStream.Sublist s.sampleStream := by
  cases hlose : a.mayLose with
  | true =>
    obtain ⟨hpending, hsamples⟩ := (intervenes_of_mayLose hlose h).onlyLoses.streams
    exact ⟨hpending.trans (List.sublist_append_left _ _), hsamples⟩
  | false =>
    obtain ⟨hpending, hsamples⟩ := agentStep_lossless_streams hlose h
    rw [hpending, hsamples]
    exact ⟨.refl _, .refl _⟩

/-- A step that is not enabled sends nothing: the client has closed, or sends no byte (R115). -/
theorem sentBy_of_none (h : agentStep a s = none) : sentBy (.agent a) s = [] := by
  cases a <;> simp only [sentBy]
  case hostSend d =>
    simp only [agentStep, hostSend] at h
    split at h
    case isTrue => cases h
    case isFalse hclosed =>
      cases hc : s.net.net_closed with
      | true => rfl
      | false => simpa [hc] using hclosed

end Sys2Proof.Machine
end

