-- ==== Sys2Proof/Proofs/Runs.lean ====
section
/-! SUPPORT. Finite runs: one event at a time, the configuration, and facts that every event keeps. -/

namespace Sys2Proof.Machine

open Sys2Proof

variable {s t : State}

/-- The configuration is constant (R26). -/
theorem stepEvent_cfg {e : Event} (h : stepEvent e s = .next t) : t.cfg = s.cfg := by
  obtain ⟨-, ⟨tdo, rfl, htick⟩ | ⟨a, rfl, ha | ⟨-, rfl⟩⟩ | ⟨init, rfl, -, rfl⟩ | ⟨rfl, -, rfl⟩⟩ := stepEvent_next h
  · obtain ⟨hcfg, -⟩ := engStep_frame htick
    exact hcfg
  · obtain ⟨hcfg, -⟩ := agentStep_frame ha
    exact hcfg
  · rfl
  · rfl
  · rfl

/-- An event that is no tick and no reset leaves the stream position. -/
theorem stepEvent_keeps_pos {e : Event} (htick : e.isTick = false) (hreset : e.isReset = false)
    (h : stepEvent e s = .next t) : t.pos = s.pos := by
  obtain ⟨-, ⟨tdo, rfl, -⟩ | ⟨a, rfl, ha | ⟨-, rfl⟩⟩ | ⟨init, rfl, -, -⟩ | ⟨rfl, -, rfl⟩⟩ := stepEvent_next h
  · cases htick
  · obtain ⟨-, -, hpos, -⟩ := agentStep_frame ha
    exact hpos
  · rfl
  · cases hreset
  · rfl

/-- A run is its first event and the rest. -/
theorem runEvents_cons {e : Event} {es : List Event} :
    runEvents (e :: es) s = .next t ↔ ∃ u, stepEvent e s = .next u ∧ runEvents es u = .next t := by
  rw [runEvents]
  cases stepEvent e s <;> simp

/-- What every allowed event keeps, a run of allowed events keeps. -/
theorem runEvents_keeps {P : State → Prop} {A : Event → Prop}
    (hstep : ∀ e s t, A e → P s → stepEvent e s = .next t → P t) {es : List Event} (hall : ∀ e ∈ es, A e) (hs : P s)
    (hrun : runEvents es s = .next t) : P t := by
  induction es generalizing s with
  | nil => exact Host.Outcome.next.inj hrun ▸ hs
  | cons e es ih =>
    obtain ⟨u, hfirst, hrest⟩ := runEvents_cons.1 hrun
    have hu : P u := hstep e s u (hall e List.mem_cons_self) hs hfirst
    exact ih (fun e he => hall e (List.mem_cons_of_mem _ he)) hu hrest

/-- A run with its history is its first event and the rest. -/
theorem runHistory_cons {e : Event} {es : List Event} {h k : History} :
    runHistory (e :: es) s h = some (t, k) ↔
      ∃ u, stepEvent e s = .next u ∧ runHistory es u (h.extend e s) = some (t, k) := by
  rw [runHistory]
  cases stepEvent e s <;> simp

/-- What every allowed event keeps of state and history, a run of allowed events keeps. -/
theorem runHistory_keeps {P : State → History → Prop} {A : Event → Prop}
    (hstep : ∀ e s t h, A e → P s h → stepEvent e s = .next t → P t (h.extend e s)) {es : List Event} {h k : History}
    (hall : ∀ e ∈ es, A e) (hs : P s h) (hrun : runHistory es s h = some (t, k)) : P t k := by
  induction es generalizing s h with
  | nil =>
    obtain ⟨rfl, rfl⟩ := Prod.mk.inj (Option.some.inj hrun)
    exact hs
  | cons e es ih =>
    obtain ⟨u, hfirst, hrest⟩ := runHistory_cons.1 hrun
    have hu := hstep e s u h (hall e List.mem_cons_self) hs hfirst
    exact ih (fun e he => hall e (List.mem_cons_of_mem _ he)) hu hrest

end Sys2Proof.Machine
end

