-- ==== Sys2Proof/Proofs/Relay.lean ====
section
/-! SUPPORT. State and history of a session agree, step by step (R123, R125): an agent's step keeps or thins the two
streams, a tick moves the head byte from what is under way to what is consumed and appends its sample. -/

namespace Sys2Proof.Machine

open Sys2Proof

variable {s t : State}

/-! ### What a tick consumes and pushes -/

theorem consumedBy_eng (tdo : Bit) (s : State) :
    consumedBy (.eng tdo) s = s.cmd_q.take (s.drawTdo tdo).tickOut.2.1.toNat := by
  simp only [consumedBy, State.cmd_en, portBit_eq_one_iff, State.cmd_data, State.cmdHead]
  cases (s.drawTdo tdo).tickOut.2.1 <;> cases s.cmd_q <;> rfl

theorem pushedBy_eng (tdo : Bit) (s : State) : pushedBy (.eng tdo) s = (s.drawTdo tdo).tickOut.2.2.toList := rfl

/-- A tick takes the consumed byte off the pending ones and appends the pushed one to the sample stream. -/
theorem tick_streams {tdo : Bit} (h : engStep (s.drawTdo tdo) = .next t) :
    s.pendingCmds = consumedBy (.eng tdo) s ++ t.pendingCmds ∧
      t.sampleStream = s.sampleStream ++ pushedBy (.eng tdo) s := by
  rw [consumedBy_eng, pushedBy_eng, engStep_next h]
  simp only [State.pendingCmds, State.sampleStream, apply_cmd_q, apply_smp_q, apply_br, apply_net, drawTdo_cmd_q,
    drawTdo_smp_q, drawTdo_br, drawTdo_net, ← List.append_assoc, List.take_append_drop, and_self]

/-- The byte a tick consumes is the head of the stream, and the tick pushes exactly where that byte is READ (R85). -/
theorem pushedBy_length (tdo : Bit) (s : State) :
    (pushedBy (.eng tdo) s).length = (consumedBy (.eng tdo) s).count 0x52#8 := by
  rw [consumedBy_eng, pushedBy_eng]
  cases hpop : (s.drawTdo tdo).tickOut.2.1 with
  | false => rw [tickOut_of_no_pop hpop]; rfl
  | true =>
    obtain ⟨h0, b, hb, -, hspace⟩ := tickOut_pop_iff.1 hpop
    obtain ⟨q, hq⟩ := List.head?_eq_some_iff.1 hb
    rw [drawTdo_cmd_q] at hq
    rw [hq, tickOut_of_head h0 hb]
    by_cases hread : cls b = .read
    · obtain rfl := (cls_eq_read_iff b).1 hread
      rw [hread, hspace hread]
      rfl
    · have hne : b ≠ 0x52#8 := fun h => hread ((cls_eq_read_iff b).2 h)
      have hnone : (classAct (s.drawTdo tdo).cfg (s.drawTdo tdo).eng (s.drawTdo tdo).smpSpace
          (s.drawTdo tdo).env.tdo_i (cls b)).2.2 = none :=
        Option.eq_none_iff_forall_ne_some.2 fun c hc => hread (classAct_push_eq_some.1 hc).1
      rw [hnone]
      simp [hne]

/-- The stream position counts the consumed bytes (R24). -/
theorem tick_pos {tdo : Bit} (h : engStep (s.drawTdo tdo) = .next t) :
    t.pos = s.pos + (consumedBy (.eng tdo) s).length := by
  rw [consumedBy_eng, engStep_next h, apply_pos, drawTdo_pos]
  cases hpop : (s.drawTdo tdo).tickOut.2.1 with
  | false => simp
  | true =>
    obtain ⟨-, b, hb, -⟩ := tickOut_pop_iff.1 hpop
    obtain ⟨q, hq⟩ := List.head?_eq_some_iff.1 hb
    rw [drawTdo_cmd_q] at hq
    simp [hq]

/-! ### The step lemmas -/

/-- A step of an agent consumes and pushes nothing. -/
theorem extend_agent (h : History) (a : AgentStep) (s : State) :
    h.extend (.agent a) s = { h with sent := h.sent ++ sentBy (.agent a) s } := by
  simp [History.extend, consumedBy, pushedBy]

/-- The client sends nothing in a tick. -/
theorem extend_eng (h : History) (tdo : Bit) (s : State) : h.extend (.eng tdo) s =
    { h with consumed := h.consumed ++ consumedBy (.eng tdo) s, pushed := h.pushed ++ pushedBy (.eng tdo) s } := by
  simp [History.extend, sentBy]

theorem relayInv_agent {h : History} {a : AgentStep} (hinv : RelayInv s h) (ha : agentStep a s = some t) :
    RelayInv t (h.extend (.agent a) s) := by
  obtain ⟨hsent, hpushed, hreads, hpos⟩ := hinv
  obtain ⟨-, -, hposition, -⟩ := agentStep_frame ha
  obtain ⟨hpending, hsamples⟩ := agentStep_streams ha
  rw [extend_agent]
  have hgrow : (h.consumed ++ (s.pendingCmds ++ sentBy (.agent a) s)).Sublist (h.sent ++ sentBy (.agent a) s) := by
    rw [← List.append_assoc]
    exact hsent.append_right _
  exact ⟨(hpending.append_left _).trans hgrow, hsamples.trans hpushed, hreads, hposition.trans hpos⟩

theorem relayInv_wait {h : History} {a : AgentStep} (hinv : RelayInv s h) (ha : agentStep a s = none) :
    RelayInv s (h.extend (.agent a) s) := by
  rw [extend_agent, sentBy_of_none ha, List.append_nil]
  exact hinv

theorem relayInv_tick {h : History} {tdo : Bit} (hinv : RelayInv s h) (ht : engStep (s.drawTdo tdo) = .next t) :
    RelayInv t (h.extend (.eng tdo) s) := by
  obtain ⟨hsent, hpushed, hreads, hpos⟩ := hinv
  obtain ⟨hpending, hsamples⟩ := tick_streams ht
  rw [extend_eng]
  refine ⟨?_, ?_, ?_, ?_⟩
  · rwa [List.append_assoc, ← hpending]
  · rw [hsamples]
    exact hpushed.append_right _
  · rw [List.length_append, List.count_append, hreads, pushedBy_length]
  · rw [tick_pos ht, hpos, List.length_append]

theorem mayLose_of_lossless {a : AgentStep} (h : (Event.agent a).lossless = true) : a.mayLose = false := by
  simpa [Event.lossless] using h

theorem losslessRelayInv_agent {h : History} {a : AgentStep} (hkeep : a.mayLose = false) (hinv : LosslessRelayInv s h)
    (ha : agentStep a s = some t) : LosslessRelayInv t (h.extend (.agent a) s) := by
  obtain ⟨hsent, hpushed, hreads⟩ := hinv
  obtain ⟨hpending, hsamples⟩ := agentStep_lossless_streams hkeep ha
  rw [extend_agent]
  exact ⟨by rw [hpending, hsent, List.append_assoc], by rw [hsamples, hpushed], hreads⟩

theorem losslessRelayInv_wait {h : History} {a : AgentStep} (hinv : LosslessRelayInv s h) (ha : agentStep a s = none) :
    LosslessRelayInv s (h.extend (.agent a) s) := by
  rw [extend_agent, sentBy_of_none ha, List.append_nil]
  exact hinv

theorem losslessRelayInv_tick {h : History} {tdo : Bit} (hinv : LosslessRelayInv s h)
    (ht : engStep (s.drawTdo tdo) = .next t) : LosslessRelayInv t (h.extend (.eng tdo) s) := by
  obtain ⟨hsent, hpushed, hreads⟩ := hinv
  obtain ⟨hpending, hsamples⟩ := tick_streams ht
  rw [extend_eng]
  refine ⟨?_, ?_, ?_⟩
  · rw [hsent, hpending, List.append_assoc]
  · rw [hsamples, hpushed]
  · rw [List.length_append, List.count_append, hreads, pushedBy_length]

/-! ### The obligations -/

/-- Settles O60: by the kind of event; the streams of an agent's step and of a tick say how the history grows. -/
theorem everyStepKeepsTheRelay : Obligations.EveryStepKeepsTheRelay := by
  refine ⟨fun e s t h hin hinv hstep => ?_, fun e s t h hlossless hinv hstep => ?_⟩ <;>
    obtain ⟨-, ⟨tdo, rfl, ht⟩ | ⟨a, rfl, ha | ⟨ha, rfl⟩⟩ | ⟨init, rfl, -, -⟩ | ⟨rfl, -, -⟩⟩ := stepEvent_next hstep
  · exact relayInv_tick hinv ht
  · exact relayInv_agent hinv ha
  · exact relayInv_wait hinv ha
  · cases hin
  · cases hin
  · exact losslessRelayInv_tick hinv ht
  · exact losslessRelayInv_agent (mayLose_of_lossless hlossless) hinv ha
  · exact losslessRelayInv_wait hinv ha
  · cases hlossless
  · cases hlossless

/-- Settles O51: a launched session and the empty history agree, and every event inside the session keeps that. -/
theorem nothingIsDuplicatedOrReordered : Obligations.NothingIsDuplicatedOrReordered := by
  intro cfg init es t h hin hrun
  have hlaunch : RelayInv (State.launch cfg init) History.empty := ⟨.refl _, .refl _, rfl, rfl⟩
  exact runHistory_keeps everyStepKeepsTheRelay.1 hin hlaunch hrun

/-- Settles O52: the same induction over the events that lose nothing, with the byte for byte agreement. -/
theorem aLosslessRunRelaysEveryByte : Obligations.ALosslessRunRelaysEveryByte := by
  intro cfg init es t h hlossless hrun
  have hlaunch : LosslessRelayInv (State.launch cfg init) History.empty := ⟨rfl, rfl, rfl⟩
  exact runHistory_keeps everyStepKeepsTheRelay.2 hlossless hlaunch hrun

end Sys2Proof.Machine
end

