-- ==== Sys2Proof/Proofs/Timing.lean ====
section
/-! SUPPORT. When a byte is consumed: a command arms the timer to one less than its gap (R70, R152), the timer counts the
ticks of a run and nothing else, and at 0 a known head byte is taken. -/

namespace Sys2Proof.Machine

open Sys2Proof

variable {s t : State}

/-! ### The timer over a run -/

theorem ticks_cons (e : Event) (es : List Event) : ticks (e :: es) = ticks es + if e.isTick then 1 else 0 :=
  List.countP_cons ..

/-- A tick with a nonzero timer, as an event. -/
theorem stepEvent_eng_of_timer_ne_zero (hadm : s.cfg.Admitted) (h0 : s.eng.timer ≠ 0) (tdo : Bit) :
    stepEvent (.eng tdo) s = .next (timerDecr (s.drawTdo tdo)) := by
  rw [stepEvent_eng hadm]
  exact engStep_of_timer_ne_zero (s := s.drawTdo tdo) h0

/-- A run with no more ticks than the timer counts: no byte is consumed, the signals hold, and the timer has counted the
ticks (R64). -/
theorem runEvents_of_ticks_le {es : List Event} (hreset : ∀ e ∈ es, e.isReset = false)
    (hticks : ticks es ≤ s.eng.timer) (hrun : runEvents es s = .next t) :
    t.cfg = s.cfg ∧ t.pos = s.pos ∧ t.eng.timer = s.eng.timer - ticks es ∧ t.eng.signals = s.eng.signals := by
  induction es generalizing s with
  | nil =>
    obtain rfl := Host.Outcome.next.inj hrun
    exact ⟨rfl, rfl, rfl, rfl⟩
  | cons e es ih =>
    obtain ⟨u, hfirst, hrest⟩ := runEvents_cons.1 hrun
    have hreset' : ∀ e ∈ es, e.isReset = false := fun e he => hreset e (List.mem_cons_of_mem _ he)
    rw [ticks_cons] at hticks ⊢
    cases htick : e.isTick with
    | true =>
      cases e <;> simp only [Event.isTick, Bool.false_eq_true] at htick
      case eng tdo =>
        simp only [Event.isTick, if_true] at hticks ⊢
        obtain ⟨hadm, -⟩ := stepEvent_next hfirst
        have hne : s.eng.timer ≠ 0 := by omega
        obtain rfl := Host.Outcome.next.inj ((stepEvent_eng_of_timer_ne_zero hadm hne tdo).symm.trans hfirst)
        have htimer : (timerDecr (s.drawTdo tdo)).eng.timer = s.eng.timer - 1 := rfl
        obtain ⟨hcfg, hpos, hcount, hsignals⟩ := ih hreset' (by omega) hrest
        exact ⟨hcfg, hpos, by omega, hsignals⟩
    | false =>
      have hnoreset := hreset e List.mem_cons_self
      have heng := stepEvent_keeps_eng htick hnoreset hfirst
      rw [htick, if_neg Bool.false_ne_true, Nat.add_zero] at hticks
      obtain ⟨hcfg, hpos, hcount, hsignals⟩ := ih hreset' (by rwa [heng]) hrest
      rw [heng] at hcount hsignals
      exact ⟨hcfg.trans (stepEvent_cfg hfirst), hpos.trans (stepEvent_keeps_pos htick hnoreset hfirst), hcount, hsignals⟩

/-! ### The consumption that starts the gap -/

/-- A class with a gap arms the timer to one less, or leaves it at 0 for a gap of 1. -/
theorem classAct_timer_of_gap {c : Config} {k : CmdClass} {g : Nat} (hgap : gap c k = some g) {r : EngState}
    (h0 : r.timer = 0) (space : Bool) (tdo : Bit) : (classAct c r space tdo k).1.timer = g - 1 := by
  cases k with
  | read =>
    rw [classAct_read_eng, h0]
    cases hgap
    rfl
  | drv _ | sleepLong | sleepShort =>
    cases hgap
    rfl
  | rst _ | blink _ | quit =>
    cases hgap
    exact h0
  | unknown => cases hgap

/-- READ is the one instruction of its class (R55). -/
theorem cls_eq_read {i : Instr} : i.cls = .read ↔ i = .read := by
  cases i <;> simp [Instr.cls]

/-- An instruction with a gap, and READ only with space, is consumed (R66). -/
theorem exec_pos_of_gap {i : Instr} {g : Nat} (hgap : gap s.cfg i.cls = some g) (hread : i = .read → s.smpSpace = true)
    (h : exec i s = .next t) : t.pos = s.pos + 1 := by
  rw [exec_eq_apply, Host.Outcome.next.injEq] at h
  have hknown : i.cls ≠ .unknown := fun hk => by simp [hk, gap] at hgap
  have hpop := (classAct_pop s.cfg s.eng s.smpSpace s.env.tdo_i i.cls).2 ⟨hknown, fun hk => hread (cls_eq_read.1 hk)⟩
  rw [← h]
  exact (apply_of_pop hpop).2

/-- Settles O28: the consuming tick leaves the timer at `gap - 1`, which the rest of the run counts down; at 0 a tick is
the instruction at the head. -/
theorem commandsAreConsumedGapTicksApart : Obligations.CommandsAreConsumedGapTicksApart := by
  intro s t i g tdo es hadm h0 hf hgap hread hreset hticks hrun
  obtain ⟨u, hfirst, hrest⟩ := runEvents_cons.1 hrun
  rw [stepEvent_eng hadm] at hfirst
  have hexec : exec i (s.drawTdo tdo) = .next u := (engStep_of_fetch (s := s.drawTdo tdo) h0 hf).symm.trans hfirst
  have hpos : u.pos = s.pos + 1 := exec_pos_of_gap (s := s.drawTdo tdo) hgap hread hexec
  have htimer : u.eng.timer = g - 1 := by
    rw [exec_next_eng hexec]
    exact classAct_timer_of_gap hgap h0 _ _
  obtain ⟨hcfg, hpos', hcount, hsignals⟩ := runEvents_of_ticks_le hreset (by omega) hrest
  refine ⟨hpos'.trans hpos, by rw [hcount, htimer], ⟨u, hfirst, hsignals⟩, fun hlast j tdo' hj => ?_⟩
  have hadm' : t.cfg.Admitted := by
    obtain ⟨hcfg', -⟩ := engStep_frame hfirst
    rw [hcfg, hcfg']
    exact hadm
  have hzero : (t.drawTdo tdo').eng.timer = 0 := by
    rw [drawTdo_eng]
    omega
  rw [stepEvent_eng hadm']
  exact engStep_of_fetch hzero hj

/-- Settles O29: by induction on the timer; each tick but the last decrements it, and the last one pops. -/
theorem aKnownHeadIsConsumedWhenTheTimerRunsOut : Obligations.AKnownHeadIsConsumedWhenTheTimerRunsOut := by
  intro s b q tdos hadm hq hknown hread hlen
  generalize hn : s.eng.timer = n at hlen
  induction n generalizing s tdos with
  | zero =>
    obtain ⟨tdo, rfl⟩ := List.length_eq_one_iff.1 hlen
    have hhead : (s.drawTdo tdo).cmd_q.head? = some b := by rw [drawTdo_cmd_q, hq, List.head?_cons]
    have hpop : (s.drawTdo tdo).tickOut.2.1 = true := tickOut_pop_iff.2 ⟨hn, b, hhead, hknown, hread⟩
    obtain ⟨hcmd, hpos⟩ := apply_of_pop (s := s.drawTdo tdo) hpop
    refine ⟨_, runEvents_cons.2 ⟨_, (stepEvent_eng hadm tdo).trans (engStep_eq_apply _), rfl⟩, hpos, ?_⟩
    rw [hcmd, drawTdo_cmd_q, hq, List.tail_cons]
  | succ n ih =>
    obtain ⟨tdo, tdos, rfl⟩ := List.exists_cons_of_length_eq_add_one hlen
    have hne : s.eng.timer ≠ 0 := by omega
    have htimer : (timerDecr (s.drawTdo tdo)).eng.timer = n := by
      rw [timerDecr_eng, drawTdo_eng, hn, Nat.add_sub_cancel]
    obtain ⟨t, hrun, hpos, hcmd⟩ :=
      ih (timerDecr (s.drawTdo tdo)) tdos hadm hq hread htimer (Nat.succ.inj hlen)
    exact ⟨t, (runEvents_cons_of_next (stepEvent_eng_of_timer_ne_zero hadm hne tdo) _).trans hrun, hpos, hcmd⟩

end Sys2Proof.Machine
end

