-- ==== Sys2Proof/Proofs/PermanentWaits.lean ====
section
/-! SUPPORT. The two waits that no tick ends: the wedge (R97), and the READ without space (R86), which only the inbound
loop's read ends. Each is a relation to the state it began in that every other event keeps. -/

namespace Sys2Proof.Machine

open Sys2Proof

variable {s t u : State}

/-- A byte at the head stays there while the channel only grows. -/
theorem head?_of_extends {p q : List Byte} {b : Byte} (h : p <+: q) (hb : p.head? = some b) : q.head? = some b := by
  obtain ⟨p', rfl⟩ := List.head?_eq_some_iff.1 hb
  obtain ⟨q', rfl⟩ := h
  rfl

/-- A launch needs an empty command channel (R143). -/
theorem not_launchPremise_of_head {b : Byte} (hb : s.cmd_q.head? = some b) : ¬ LaunchPremise s := by
  rintro ⟨-, -, hempty, -⟩
  simp [hempty] at hb

/-! ### The wedge -/

/-- What a wedge keeps from the state it began in. -/
structure WedgedSince (s t : State) : Prop where
  eng : t.eng = s.eng
  pos : t.pos = s.pos
  cmd_q : s.cmd_q <+: t.cmd_q
  samples : t.sampleStream.Sublist s.sampleStream

/-- More bytes in the command channel do not end a wedge. -/
theorem WedgedSince.wedged (h : WedgedSince s t) (hs : Wedged s) : Wedged t := by
  obtain ⟨h0, b, hb, hcls⟩ := hs
  exact ⟨by rw [h.eng, h0], b, head?_of_extends h.cmd_q hb, hcls⟩

theorem wedgedSince_step {e : Event} (hs : Wedged s) (hreset : e.isReset = false) (h : WedgedSince s t)
    (hstep : stepEvent e t = .next u) : WedgedSince s u := by
  have ht := h.wedged hs
  obtain ⟨-, ⟨tdo, rfl, htick⟩ | ⟨a, rfl, ha | ⟨-, rfl⟩⟩ | ⟨init, rfl, -, -⟩ | ⟨rfl, hlaunch, -⟩⟩ := stepEvent_next hstep
  · obtain rfl := Host.Outcome.next.inj ((engStep_of_wedged (s := t.drawTdo tdo) ht).symm.trans htick)
    exact ⟨h.eng, h.pos, h.cmd_q, h.samples⟩
  · obtain ⟨-, heng, hpos, -⟩ := agentStep_frame ha
    exact ⟨heng.trans h.eng, hpos.trans h.pos, h.cmd_q.trans (agentStep_cmd_q_extends ha),
      (agentStep_streams ha).2.trans h.samples⟩
  · exact h
  · cases hreset
  · obtain ⟨-, b, hb, -⟩ := ht
    exact absurd hlaunch (not_launchPremise_of_head hb)

/-- Settles O30: the relation to the first wedged state is kept by every event but a reset. -/
theorem aWedgeIsPermanent : Obligations.AWedgeIsPermanent := by
  intro s t es hs hreset hrun
  have hsince : WedgedSince s t :=
    runEvents_keeps (P := WedgedSince s) (fun e _ _ he h => wedgedSince_step hs he h) hreset
      ⟨rfl, rfl, ⟨[], List.append_nil _⟩, .refl _⟩ hrun
  have ht := hsince.wedged hs
  obtain ⟨-, b, hb, -⟩ := hs
  exact ⟨ht, hsince.eng, hsince.pos, (head?_of_extends hsince.cmd_q hb).trans hb.symm, hsince.cmd_q,
    hsince.samples⟩

/-! ### The READ without space -/

/-- The engine waits at a READ for space (R86). -/
def Stalled (s : State) : Prop := s.eng.timer = 0 ∧ s.cmd_q.head? = some 0x52#8 ∧ s.smpSpace = false

/-- What a stall keeps from the state it began in. -/
structure StalledSince (s t : State) : Prop where
  cfg : t.cfg = s.cfg
  eng : t.eng = s.eng
  pos : t.pos = s.pos
  cmd_q : s.cmd_q <+: t.cmd_q
  smp_q : t.smp_q = s.smp_q

theorem StalledSince.stalled (h : StalledSince s t) (hs : Stalled s) : Stalled t := by
  obtain ⟨h0, hb, hspace⟩ := hs
  refine ⟨by rw [h.eng, h0], head?_of_extends h.cmd_q hb, ?_⟩
  rwa [State.smpSpace, h.smp_q, h.cfg]

/-- The tick of a stalled state is that state. -/
theorem engStep_of_stalled (h : Stalled s) : engStep s = .next s := by
  obtain ⟨h0, hb, hspace⟩ := h
  have hfull : s.cfg.SMP_DEPTH ≤ s.smp_q.length := by simpa [State.smpSpace] using hspace
  rw [engStep_of_fetch h0 (fetch_of_head hb)]
  exact exec_read_of_full hfull

theorem stalledSince_step {e : Event} (hs : Stalled s) (he : e.isReset = false ∧ ∀ k, e ≠ .agent (.inRead k))
    (h : StalledSince s t) (hstep : stepEvent e t = .next u) : StalledSince s u := by
  have ht := h.stalled hs
  obtain ⟨hreset, hnoread⟩ := he
  obtain ⟨-, ⟨tdo, rfl, htick⟩ | ⟨a, rfl, ha | ⟨-, rfl⟩⟩ | ⟨init, rfl, -, -⟩ | ⟨rfl, hlaunch, -⟩⟩ := stepEvent_next hstep
  · obtain rfl := Host.Outcome.next.inj ((engStep_of_stalled (s := t.drawTdo tdo) ht).symm.trans htick)
    exact ⟨h.cfg, h.eng, h.pos, h.cmd_q, h.smp_q⟩
  · obtain ⟨hcfg, heng, hpos, -⟩ := agentStep_frame ha
    have hsmp : u.smp_q = t.smp_q := (agentStep_writers ha).smp_q.resolve_right fun ⟨k, hk, _⟩ => hnoread k (hk ▸ rfl)
    exact ⟨hcfg.trans h.cfg, heng.trans h.eng, hpos.trans h.pos, h.cmd_q.trans (agentStep_cmd_q_extends ha),
      hsmp.trans h.smp_q⟩
  · exact h
  · cases hreset
  · obtain ⟨-, hb, -⟩ := ht
    exact absurd hlaunch (not_launchPremise_of_head hb)

/-- Settles O31: the relation to the first stalled state is kept by every event but a reset and the inbound loop's read. -/
theorem onlyAReadOfTheInboundLoopEndsBackpressure : Obligations.OnlyAReadOfTheInboundLoopEndsBackpressure := by
  intro s t es h0 hb hspace hevents hrun
  have hsince : StalledSince s t :=
    runEvents_keeps (P := StalledSince s) (fun e _ _ he h => stalledSince_step ⟨h0, hb, hspace⟩ he h) hevents
      ⟨rfl, rfl, rfl, ⟨[], List.append_nil _⟩, rfl⟩ hrun
  exact ⟨hsince.eng, hsince.pos, head?_of_extends hsince.cmd_q hb, hsince.cmd_q, hsince.smp_q⟩

end Sys2Proof.Machine
end

