-- ==== Sys2Proof/Proofs/Invariant.lean ====
section
/-! SUPPORT. The invariant of reachable states (R37), part by part: the channels' bounds, the samples, the held chunks, and
the agreement of session, loops and record. -/

namespace Sys2Proof.Machine

open Sys2Proof

variable {s t : State}

/-! ### The parts by name -/

theorem Inv.admitted (h : Inv s) : s.cfg.Admitted := by
  obtain ⟨hadm, -⟩ := h
  exact hadm

theorem Inv.chunksNonempty (h : Inv s) : ChunksNonempty s.br := by
  obtain ⟨-, -, -, -, -, -, -, hheld, -⟩ := h
  exact hheld

theorem Inv.consistent (h : Inv s) : SessionConsistent s.br := by
  obtain ⟨-, -, -, -, -, -, -, -, hsess⟩ := h
  exact hsess

/-! ### The samples -/

/-- The invariant's three clauses about samples are one about the sample stream. -/
theorem samples_iff_stream : (∀ b ∈ s.sampleStream, IsSample b) ↔
    (∀ b ∈ s.smp_q, IsSample b) ∧ (∀ b ∈ s.br.in_st.chunk, IsSample b) ∧ (∀ b ∈ s.net.net_tx, IsSample b) := by
  simp only [State.sampleStream, List.forall_mem_append]
  tauto

/-- The sample byte is ASCII `'0'` or `'1'` (R85). -/
theorem isSample_sampleByte : ∀ tdo : Bit, IsSample (sampleByte tdo) := by decide

theorem tick_samples {tdo : Bit} (hs : ∀ b ∈ s.sampleStream, IsSample b) (h : engStep (s.drawTdo tdo) = .next t) :
    ∀ b ∈ t.sampleStream, IsSample b := by
  rw [(tick_streams h).2, List.forall_mem_append]
  refine ⟨hs, fun b hb => ?_⟩
  rw [pushedBy_eng, Option.mem_toList] at hb
  obtain ⟨-, -, -, rfl⟩ := tickOut_push_iff.1 hb
  exact isSample_sampleByte _

/-! ### The channels' bounds -/

theorem tick_bounds (h : engStep s = .next t) (hcmd : s.cmd_q.length ≤ s.cfg.CMD_DEPTH)
    (hsmp : s.smp_q.length ≤ s.cfg.SMP_DEPTH) :
    t.cmd_q.length ≤ s.cfg.CMD_DEPTH ∧ t.smp_q.length ≤ s.cfg.SMP_DEPTH := by
  constructor
  · rw [engStep_next h, apply_cmd_q, List.length_drop]
    omega
  · obtain hsame | ⟨hroom, hpush⟩ := engStep_smp_q h
    · rwa [hsame]
    · rw [hpush, List.length_append, List.length_singleton]
      omega

theorem agentStep_bounds {a : AgentStep} (h : agentStep a s = some t) (hcmd : s.cmd_q.length ≤ s.cfg.CMD_DEPTH)
    (hsmp : s.smp_q.length ≤ s.cfg.SMP_DEPTH) :
    t.cmd_q.length ≤ s.cfg.CMD_DEPTH ∧ t.smp_q.length ≤ s.cfg.SMP_DEPTH := by
  constructor
  · obtain hsame | ⟨hroom, b, -, hpush⟩ := (agentStep_writers h).cmd_q
    · rwa [hsame]
    · rw [hpush, List.length_append, List.length_singleton]
      omega
  · obtain hsame | ⟨k, -, -, htake⟩ := (agentStep_writers h).smp_q
    · rwa [hsame]
    · rw [htake, List.length_drop]
      omega

/-! ### The held chunks -/

/-- A chunk of a drawn size of at least 1 from enough bytes is not empty (R102, R111). -/
theorem take_ne_nil {k : Nat} {q : List Byte} {m : Nat} (hk : 1 ≤ k ∧ k ≤ min q.length m) : q.take k ≠ [] := by
  have hlen : (q.take k).length ≠ 0 := by
    rw [List.length_take]
    omega
  exact fun h => hlen (by rw [h, List.length_nil])

/-- An intervention gives no loop a chunk. -/
theorem Intervenes.chunksNonempty (h : Intervenes s t) (hs : ChunksNonempty s.br) : ChunksNonempty t.br := by
  obtain ⟨hout, hin⟩ := hs
  cases h with
  | raise l r =>
    cases l with
    | outbound => exact ⟨nofun, hin⟩
    | inbound => exact ⟨hout, nofun⟩
  | absorb l eff =>
    cases eff with
    | keep => exact ⟨hout, hin⟩
    | restart =>
      cases l with
      | outbound =>
        refine ⟨?_, by rwa [absorbCancel, restart_outbound_in_st]⟩
        cases hst : s.br.out_st <;> simp_all [absorbCancel, restartLoop]
      | inbound =>
        refine ⟨by rwa [absorbCancel, restart_inbound_out_st], ?_⟩
        cases hst : s.br.in_st <;> simp_all [absorbCancel, restartLoop]
  | supOutbound => exact ⟨nofun, hin⟩
  | supInbound => exact ⟨hout, nofun⟩
  | cancel =>
    constructor
    · show (if _ then _ else _) ≠ _
      split <;> simp [hout]
    · show (if _ then _ else _) ≠ _
      split <;> simp [hin]
  | residue => exact ⟨hout, hin⟩

theorem agentStep_chunksNonempty {a : AgentStep} (h : agentStep a s = some t) (hs : ChunksNonempty s.br) :
    ChunksNonempty t.br := by
  cases hlose : a.mayLose with
  | true => exact (intervenes_of_mayLose hlose h).chunksNonempty hs
  | false =>
    obtain ⟨hout, hin⟩ := hs
    cases a <;> simp only [agentStep, AgentStep.mayLose, Bool.true_eq_false] at h hlose
    case outRecv k =>
      obtain ⟨-, hk, rfl⟩ := outRecv_some.1 h
      exact ⟨fun hw => take_ne_nil hk (OutSt.Write.inj hw), hin⟩
    case outWrite => obtain ⟨-, -, rfl⟩ := outWrite_some.1 h; exact ⟨nofun, hin⟩
    case outFlush => obtain ⟨-, -, rfl⟩ := outFlush_some.1 h; exact ⟨nofun, hin⟩
    case inRead k =>
      obtain ⟨-, hk, rfl⟩ := inRead_some.1 h
      exact ⟨hout, fun hw => take_ne_nil hk (InSt.Send.inj hw)⟩
    case inSend => obtain ⟨-, -, -, rfl⟩ := inSend_some.1 h; exact ⟨hout, nofun⟩
    case xfer => obtain ⟨-, -, -, -, rfl⟩ := xfer_some.1 h; exact ⟨hout, hin⟩
    case hostSend d => obtain ⟨-, rfl⟩ := hostSend_some.1 h; exact ⟨hout, hin⟩
    case hostClose => obtain ⟨-, rfl⟩ := hostClose_some.1 h; exact ⟨hout, hin⟩
    case hostBreak => obtain ⟨-, rfl⟩ := hostBreak_some.1 h; exact ⟨hout, hin⟩

/-! ### Session, loops and record -/

/-- The agreement is about the session, the record, and which loops are stopped. -/
theorem sessionConsistent_congr {b c : Bridge} (hsess : c.sess = b.sess) (herr : c.first_err = b.first_err)
    (hout : c.out_st.isStopped = b.out_st.isStopped) (hin : c.in_st.isStopped = b.in_st.isStopped)
    (hb : SessionConsistent b) : SessionConsistent c := by
  rwa [SessionConsistent, hsess, herr, hout, hin]

theorem KeepsSession.out_stopped (h : KeepsSession s t) : t.br.out_st.isStopped = s.br.out_st.isStopped := by
  obtain hsame | ⟨hs, ht⟩ := h.out_st
  · rw [hsame]
  · rw [hs, ht]

theorem KeepsSession.in_stopped (h : KeepsSession s t) : t.br.in_st.isStopped = s.br.in_st.isStopped := by
  obtain hsame | ⟨hs, ht⟩ := h.in_st
  · rw [hsame]
  · rw [hs, ht]

theorem KeepsSession.consistent (h : KeepsSession s t) (hs : SessionConsistent s.br) : SessionConsistent t.br :=
  sessionConsistent_congr h.sess h.first_err h.out_stopped h.in_stopped hs

/-- An ended session agrees with its record where both loops are stopped and the record is its reason. -/
theorem sessionConsistent_of_ended {b : Bridge} {r : Reason} (hsess : b.sess = .Ended r)
    (hout : b.out_st.isStopped = true) (hin : b.in_st.isStopped = true) (herr : b.first_err = some r) :
    SessionConsistent b := by
  simp [SessionConsistent, hsess, hout, hin, herr, Sess.reason]

/-- An error of a running loop, from a state in agreement: the other loop still runs in an active session, and is stopped
already in an ending one (R116). -/
theorem raiseLoop_consistent {l : Loop} (r : Reason) (hrun : s.br.stopped l = false) (hs : SessionConsistent s.br) :
    SessionConsistent (raiseLoop l r s).br := by
  cases hboth : (raiseLoop l r s).br.bothStopped with
  | true =>
    obtain ⟨hout, hin⟩ := Bool.and_eq_true_iff.1 hboth
    exact sessionConsistent_of_ended (raiseLoop_sess_of_bothStopped hboth) hout hin (raiseLoop_first_err ..)
  | false =>
    have hsess := raiseLoop_sess_of_survivor hboth
    obtain ⟨hactive, hending, hended⟩ := hs
    cases hsess' : s.br.sess with
    | Active =>
      obtain ⟨hout, hin, -⟩ := hactive hsess'
      cases l <;>
        simp_all [SessionConsistent, Sess.afterError, OutSt.isStopped, InSt.isStopped, Sess.isEnded]
    | Ending =>
      obtain ⟨hone, -⟩ := hending hsess'
      cases l <;>
        simp_all [Bridge.bothStopped, Bridge.stopped, OutSt.isStopped, InSt.isStopped]
    | Ended f =>
      obtain ⟨hout, hin, -⟩ := hended (by rw [hsess']; rfl)
      cases l <;> simp_all [Bridge.stopped]

theorem restartLoop_stopped (l : Loop) (s : State) :
    (restartLoop l s).br.out_st.isStopped = s.br.out_st.isStopped ∧
      (restartLoop l s).br.in_st.isStopped = s.br.in_st.isStopped := by
  cases l with
  | outbound => cases hst : s.br.out_st <;> simp [restartLoop, hst, OutSt.isStopped]
  | inbound => cases hst : s.br.in_st <;> simp [restartLoop, hst, InSt.isStopped]

theorem absorbCancel_consistent (l : Loop) (eff : AbsorbEffect) (hs : SessionConsistent s.br) :
    SessionConsistent (absorbCancel l eff s).br := by
  cases eff with
  | keep => exact hs
  | restart =>
    obtain ⟨hout, hin⟩ := restartLoop_stopped l s
    exact sessionConsistent_congr (restartLoop_sess ..) (restartLoop_first_err ..) hout hin hs

/-- The record of an ending session is the first error (R116). -/
theorem first_err_of_ending (hs : SessionConsistent s.br) (hsess : s.br.sess = .Ending) :
    ∃ f, s.br.first_err = some f := by
  obtain ⟨-, hending, -⟩ := hs
  exact Option.isSome_iff_exists.1 (hending hsess).2

theorem Intervenes.consistent (h : Intervenes s t) (hs : SessionConsistent s.br) : SessionConsistent t.br := by
  cases h with
  | raise l r hrun => exact raiseLoop_consistent r hrun hs
  | absorb l eff => exact absorbCancel_consistent l eff hs
  | supOutbound hsess hout hin =>
    obtain ⟨f, hf⟩ := first_err_of_ending hs hsess
    exact sessionConsistent_of_ended (cancelSurvivor_sess hf _) rfl hin hf
  | supInbound hsess hout hin =>
    obtain ⟨f, hf⟩ := first_err_of_ending hs hsess
    exact sessionConsistent_of_ended (cancelSurvivor_sess hf _) hout rfl hf
  | cancel =>
    refine sessionConsistent_of_ended rfl ?_ ?_ rfl
    · show OutSt.isStopped (if _ then _ else _) = true
      split <;> simp_all [OutSt.isStopped]
    · show InSt.isStopped (if _ then _ else _) = true
      split <;> simp_all [InSt.isStopped]
  | residue => exact hs

theorem agentStep_consistent {a : AgentStep} (h : agentStep a s = some t) (hs : SessionConsistent s.br) :
    SessionConsistent t.br := by
  obtain ⟨-, hi⟩ | ⟨-, hk⟩ := agentStep_cases h
  · exact hi.consistent hs
  · exact hk.consistent hs

/-! ### The invariant -/

theorem tick_inv {tdo : Bit} (hs : Inv s) (h : engStep (s.drawTdo tdo) = .next t) : Inv t := by
  obtain ⟨hadm, htimer, hcmd, hsmp, hq, hchunk, htx, hheld, hsess⟩ := hs
  obtain ⟨hcfg, hbr, -, -⟩ := engStep_frame h
  obtain ⟨hcmd', hsmp'⟩ := tick_bounds h hcmd hsmp
  obtain ⟨hq', hchunk', htx'⟩ := samples_iff_stream.1 (tick_samples (samples_iff_stream.2 ⟨hq, hchunk, htx⟩) h)
  have htimer' := engStep_timer_le (s := s.drawTdo tdo) htimer h
  rw [drawTdo_cfg] at hcfg hcmd' hsmp' htimer'
  rw [drawTdo_br] at hbr
  rw [← hcfg] at htimer' hcmd' hsmp'
  refine ⟨by rwa [hcfg], htimer', hcmd', hsmp', hq', hchunk', htx', ?_, ?_⟩
  · rwa [hbr]
  · rwa [hbr]

theorem agentStep_inv {a : AgentStep} (hs : Inv s) (h : agentStep a s = some t) : Inv t := by
  obtain ⟨hadm, htimer, hcmd, hsmp, hq, hchunk, htx, hheld, hsess⟩ := hs
  obtain ⟨hcfg, heng, -, -⟩ := agentStep_frame h
  obtain ⟨hcmd', hsmp'⟩ := agentStep_bounds h hcmd hsmp
  have hstream : ∀ b ∈ t.sampleStream, IsSample b := fun b hb =>
    samples_iff_stream.2 ⟨hq, hchunk, htx⟩ b ((agentStep_streams h).2.subset hb)
  obtain ⟨hq', hchunk', htx'⟩ := samples_iff_stream.1 hstream
  rw [← hcfg] at hcmd' hsmp'
  exact ⟨by rwa [hcfg], by rwa [heng, hcfg], hcmd', hsmp', hq', hchunk', htx', agentStep_chunksNonempty h hheld,
    agentStep_consistent h hsess⟩

/-- A reset empties the channels and leaves the bridge as it is (R141). -/
theorem resetEngine_inv (hs : Inv s) (init : Signals) : Inv (resetEngine init s) := by
  obtain ⟨hadm, -, -, -, -, hchunk, htx, hheld, hsess⟩ := hs
  exact ⟨hadm, Nat.zero_le _, Nat.zero_le _, Nat.zero_le _, fun _ hb => absurd hb List.not_mem_nil, hchunk, htx, hheld,
    hsess⟩

theorem atLaunch_consistent : SessionConsistent Bridge.atLaunch := by decide

theorem atLaunch_chunksNonempty : ChunksNonempty Bridge.atLaunch := by decide

/-- A launch keeps the engine and its channels, and starts bridge and network anew (R143). -/
theorem launched_inv (hs : Inv s) : Inv { s with br := Bridge.atLaunch, net := Net.atLaunch } := by
  obtain ⟨hadm, htimer, hcmd, hsmp, hq, -⟩ := hs
  exact ⟨hadm, htimer, hcmd, hsmp, hq, fun _ hb => absurd hb List.not_mem_nil, fun _ hb => absurd hb List.not_mem_nil,
    atLaunch_chunksNonempty, atLaunch_consistent⟩

theorem stepEvent_inv {e : Event} (hs : Inv s) (h : stepEvent e s = .next t) : Inv t := by
  obtain ⟨-, ⟨tdo, rfl, htick⟩ | ⟨a, rfl, ha | ⟨-, rfl⟩⟩ | ⟨init, rfl, -, rfl⟩ | ⟨rfl, -, rfl⟩⟩ := stepEvent_next h
  · exact tick_inv hs htick
  · exact agentStep_inv hs ha
  · exact hs
  · exact resetEngine_inv hs init
  · exact launched_inv hs

/-- Settles O32: at launch the timer is 0, no byte is anywhere, and both loops run. -/
theorem theInvariantHoldsAtLaunch : Obligations.TheInvariantHoldsAtLaunch := by
  intro cfg init hadm
  exact ⟨hadm, Nat.zero_le _, Nat.zero_le _, Nat.zero_le _, fun _ hb => absurd hb List.not_mem_nil,
    fun _ hb => absurd hb List.not_mem_nil, fun _ hb => absurd hb List.not_mem_nil, atLaunch_chunksNonempty,
    atLaunch_consistent⟩

/-- Settles O33: taking the event off the schedule touches nothing the invariant speaks of, and each kind of event keeps
it. -/
theorem everyStepKeepsTheInvariant : Obligations.EveryStepKeepsTheInvariant := by
  intro s t hs h
  have htake : Inv s.takeEvent := hs
  exact stepEvent_inv htake h

end Sys2Proof.Machine
end

