-- ==== Sys2Proof/Proofs/BridgeRules.lean ====
section
/-! SUPPORT. The steps of the bridge's loops, the transport, the supervisor and the host as the spec tables them (R102 to
R119): when each is enabled, what it does, and that it stays on its own side of the bridge. -/

namespace Sys2Proof.Machine

open Sys2Proof

variable {s t : State}

/-! ### Receive, write, flush, transport, read -/

/-- Settles O36: the drawn size is bounded by what is there and by `RECV_MAX`. -/
theorem receiveTakesANonemptyPrefix : Obligations.ReceiveTakesANonemptyPrefix := by
  intro s t k
  rw [agentStep, outRecv_some, Nat.le_min, and_assoc, and_assoc]

/-- An outbound loop at an empty, open and sound network has no step of its own (R103). -/
theorem outbound_waits {a : AgentStep} (hst : s.br.out_st = .Recv) (hrx : s.net.net_rx = [])
    (hclosed : s.net.net_closed = false) (hbroken : s.net.net_broken = false) (hloop : a.loop? = some .outbound) :
    agentStep a s = none := by
  refine Option.eq_none_iff_forall_ne_some.2 fun t h => ?_
  cases a <;> simp only [agentStep, AgentStep.loop?, Option.some.injEq, reduceCtorEq] at h hloop
  case outRecv k =>
    obtain ⟨-, hk, -⟩ := outRecv_some.1 h
    simp only [hrx, List.length_nil] at hk
    omega
  case outNetError =>
    obtain ⟨-, hb, -⟩ := outNetError_some.1 h
    simp [hbroken] at hb
  case outNetEof =>
    obtain ⟨-, ⟨-, hc⟩, -⟩ := outNetEof_some.1 h
    simp [hclosed] at hc
  case outWrite =>
    obtain ⟨c, hw, -⟩ := outWrite_some.1 h
    simp [hst] at hw
  case outFlush =>
    obtain ⟨hf, -⟩ := outFlush_some.1 h
    simp [hst] at hf
  case outIfaceError =>
    obtain ⟨⟨c, hw⟩ | hf, -⟩ := outIfaceError_some.1 h
    · simp [hst] at hw
    · simp [hst] at hf

/-- Settles O37: the two failures by their rules; with neither, and no byte, every step of the loop lacks its guard. -/
theorem receiveFailsEndsOrWaits : Obligations.ReceiveFailsEndsOrWaits := by
  refine ⟨fun s t => outNetError_some, fun s t => ?_, fun s hst hrx hclosed hbroken a hloop =>
    outbound_waits hst hrx hclosed hbroken hloop⟩
  rw [agentStep, outNetEof_some, and_assoc]

/-- Settles O38: the rules of the two steps. -/
theorem writeIsWholeAndFlushWaitsForDelivery : Obligations.WriteIsWholeAndFlushWaitsForDelivery :=
  ⟨fun _ _ => outWrite_some, fun _ _ => outFlush_some⟩

/-- Settles O39: the rule of the transport, in which no loop and no session occurs. -/
theorem transportMovesOneByteInOrder : Obligations.TransportMovesOneByteInOrder :=
  fun _ _ => xfer_some

/-- Settles O40: the drawn size is bounded by what is there and by `READ_MAX`. -/
theorem readOfSamplesTakesANonemptyPrefix : Obligations.ReadOfSamplesTakesANonemptyPrefix := by
  intro s t k
  rw [agentStep, inRead_some, Nat.le_min, and_assoc, and_assoc]

/-- Settles O42: the rules of the two failures; an error leaves `hbuf`. -/
theorem interfaceFailureAtWriteFlushAndRead : Obligations.InterfaceFailureAtWriteFlushAndRead := by
  refine ⟨fun s t => outIfaceError_some, fun s t => inIfaceError_some, fun s t h => ?_⟩
  obtain ⟨-, rfl⟩ := outIfaceError_some.1 h
  exact raiseLoop_hbuf ..

/-! ### Iteration cancellation -/

theorem stopped_eq_false_iff {l : Loop} : s.br.stopped l = false ↔
    (l = .outbound → s.br.out_st.isStopped = false) ∧ (l = .inbound → s.br.in_st.isStopped = false) := by
  cases l <;> simp [Bridge.stopped]

/-- A running outbound loop restarts at its receive (R118). -/
theorem restart_outbound_of_running (hrun : s.br.out_st.isStopped = false) :
    restartLoop .outbound s = { s with br := { s.br with out_st := .Recv } } := by
  cases hst : s.br.out_st with
  | Recv =>
    simp only [restartLoop, hst]
    rw [← hst]
  | Write c => simp only [restartLoop, hst]
  | Flush => simp only [restartLoop, hst]
  | Stopped r => simp [hst, OutSt.isStopped] at hrun

/-- A running inbound loop restarts at its read (R118). -/
theorem restart_inbound_of_running (hrun : s.br.in_st.isStopped = false) :
    restartLoop .inbound s = { s with br := { s.br with in_st := .Read } } := by
  cases hst : s.br.in_st with
  | Read =>
    simp only [restartLoop, hst]
    rw [← hst]
  | Send c => simp only [restartLoop, hst]
  | Stopped r => simp [hst, InSt.isStopped] at hrun

/-- Settles O44: the rule of the step; a restart of a running loop is its return to the start of an iteration. -/
theorem iterationCancellationIsAbsorbedOrRaised : Obligations.IterationCancellationIsAbsorbedOrRaised := by
  refine ⟨fun s t l eff h => ?_, fun s l eff hsess hout hin => ?_⟩
  · obtain ⟨hsess, hrun, -⟩ := hostCancelIter_some.1 h
    exact ⟨hsess, stopped_eq_false_iff.1 hrun⟩
  · refine ⟨_, hostCancelIter_some.2 ⟨hsess, stopped_eq_false_iff.2 ⟨hout, hin⟩, rfl⟩, fun habsorb => ?raised,
      fun habsorb => ?keep, fun habsorb => ?restartOut, fun habsorb => ?restartIn⟩
    case raised => rw [habsorb, if_neg Bool.false_ne_true]
    case keep =>
      rintro rfl
      rw [if_pos habsorb, absorbCancel]
    case restartOut =>
      rintro rfl rfl
      rw [if_pos habsorb, absorbCancel, restart_outbound_of_running (hout rfl)]
    case restartIn =>
      rintro rfl rfl
      rw [if_pos habsorb, absorbCancel, restart_inbound_of_running (hin rfl)]

/-! ### The supervisor -/

/-- The supervisor's stop of the survivor, with a recorded error (R119). -/
theorem cancelSurvivor_outbound {f : Reason} (hf : s.br.first_err = some f) : cancelSurvivor .outbound s =
    { s with br := { s.br with out_st := .Stopped .CANCELLED_BY_SUP, sess := .Ended f } } := by
  rw [cancelSurvivor, firstErr_of_some hf]
  rfl

theorem cancelSurvivor_inbound {f : Reason} (hf : s.br.first_err = some f) : cancelSurvivor .inbound s =
    { s with br := { s.br with in_st := .Stopped .CANCELLED_BY_SUP, sess := .Ended f } } := by
  rw [cancelSurvivor, firstErr_of_some hf]
  rfl

/-- The supervisor is enabled while the session is `Ending` and exactly one loop is stopped (R119). -/
theorem sup_enabled_iff : (∃ t, sup s = some t) ↔
    s.br.sess = .Ending ∧ (s.br.out_st.isStopped ^^ s.br.in_st.isStopped) = true := by
  simp only [sup_some]
  cases s.br.out_st.isStopped <;> cases s.br.in_st.isStopped <;> simp

/-- Settles O45: the rule of the supervisor, by which loop survives. -/
theorem theSupervisorStopsTheSurvivor : Obligations.TheSupervisorStopsTheSurvivor := by
  refine ⟨fun s => sup_enabled_iff, fun s t f hf h => ?_⟩
  obtain ⟨-, ⟨hout, hin, rfl⟩ | ⟨hout, hin, rfl⟩⟩ := sup_some.1 h
  · exact ⟨fun _ => cancelSurvivor_outbound hf, fun hrun => by simp [hin] at hrun⟩
  · exact ⟨fun hrun => by simp [hout] at hrun, fun _ => cancelSurvivor_inbound hf⟩

/-! ### The host and the network -/

/-- What any event but a launch does to the bridge and the network, an agent does. -/
theorem stepEvent_bridge {e : Event} (hlaunch : e ≠ .launch) (h : stepEvent e s = .next t) :
    (t.br = s.br ∧ t.net = s.net) ∨ ∃ a, e = .agent a ∧ agentStep a s = some t := by
  obtain ⟨-, ⟨tdo, rfl, htick⟩ | ⟨a, rfl, ha | ⟨-, rfl⟩⟩ | ⟨init, rfl, -, rfl⟩ | ⟨rfl, -⟩⟩ := stepEvent_next h
  · obtain ⟨-, hbr, hnet, -⟩ := engStep_frame htick
    exact .inl ⟨hbr, hnet⟩
  · exact .inr ⟨a, rfl, ha⟩
  · exact .inl ⟨rfl, rfl⟩
  · exact .inl ⟨rfl, rfl⟩
  · exact absurd rfl hlaunch

/-- No agent reopens a closed direction or repairs a broken transport. -/
theorem agentStep_net_flags {a : AgentStep} (h : agentStep a s = some t) :
    (s.net.net_closed = true → t.net.net_closed = true) ∧ (s.net.net_broken = true → t.net.net_broken = true) := by
  obtain ⟨-, hi⟩ | ⟨-, hk⟩ := agentStep_cases h
  · rw [hi.onlyLoses.net]
    exact ⟨id, id⟩
  · exact ⟨hk.net_closed, hk.net_broken⟩

/-- Settles O48: the rules of the three steps, and the flags are only ever set. -/
theorem hostStepsTouchOnlyTheEndpoint : Obligations.HostStepsTouchOnlyTheEndpoint := by
  refine ⟨fun s t d => ?_, fun s t => hostClose_some, fun s t => hostBreak_some, fun e s t hlaunch h => ?_⟩
  · rw [agentStep, hostSend_some, and_assoc]
  · obtain ⟨-, hnet⟩ | ⟨a, -, ha⟩ := stepEvent_bridge hlaunch h
    · rw [hnet]
      exact ⟨id, id⟩
    · exact agentStep_net_flags ha

/-! ### The isolation of the loops -/

/-- What an absorbed cancellation of the outbound loop leaves of the sample flow. -/
theorem absorbCancel_outbound_isolated (eff : AbsorbEffect) (s : State) :
    (absorbCancel .outbound eff s).br.in_st = s.br.in_st ∧ (absorbCancel .outbound eff s).smp_q = s.smp_q ∧
      (absorbCancel .outbound eff s).net.net_tx = s.net.net_tx := by
  cases eff <;> simp [absorbCancel]

/-- What an absorbed cancellation of the inbound loop leaves of the command flow. -/
theorem absorbCancel_inbound_isolated (eff : AbsorbEffect) (s : State) :
    (absorbCancel .inbound eff s).br.out_st = s.br.out_st ∧ (absorbCancel .inbound eff s).cmd_q = s.cmd_q ∧
      (absorbCancel .inbound eff s).br.hbuf = s.br.hbuf ∧ (absorbCancel .inbound eff s).net.net_rx = s.net.net_rx := by
  cases eff <;> simp [absorbCancel]

theorem outbound_isolated {a : AgentStep} (ha : a.loop? = some .outbound ∨ a.target? = some .outbound)
    (h : agentStep a s = some t) :
    t.br.in_st = s.br.in_st ∧ t.smp_q = s.smp_q ∧ t.net.net_tx = s.net.net_tx := by
  cases a <;> simp only [agentStep, AgentStep.loop?, AgentStep.target?, Option.some.injEq, reduceCtorEq, or_self,
    or_false, false_or] at h ha
  case outRecv k => obtain ⟨-, -, rfl⟩ := outRecv_some.1 h; exact ⟨rfl, rfl, rfl⟩
  case outNetError => obtain ⟨-, -, rfl⟩ := outNetError_some.1 h; exact ⟨rfl, rfl, rfl⟩
  case outNetEof => obtain ⟨-, -, rfl⟩ := outNetEof_some.1 h; exact ⟨rfl, rfl, rfl⟩
  case outWrite => obtain ⟨-, -, rfl⟩ := outWrite_some.1 h; exact ⟨rfl, rfl, rfl⟩
  case outFlush => obtain ⟨-, -, rfl⟩ := outFlush_some.1 h; exact ⟨rfl, rfl, rfl⟩
  case outIfaceError => obtain ⟨-, rfl⟩ := outIfaceError_some.1 h; exact ⟨rfl, rfl, rfl⟩
  case hostCancelIter l eff =>
    subst ha
    obtain ⟨-, -, rfl⟩ := hostCancelIter_some.1 h
    split
    · exact absorbCancel_outbound_isolated eff s
    · exact ⟨rfl, rfl, rfl⟩

theorem inbound_isolated {a : AgentStep} (ha : a.loop? = some .inbound ∨ a.target? = some .inbound)
    (h : agentStep a s = some t) :
    t.br.out_st = s.br.out_st ∧ t.cmd_q = s.cmd_q ∧ t.br.hbuf = s.br.hbuf ∧ t.net.net_rx = s.net.net_rx := by
  cases a <;> simp only [agentStep, AgentStep.loop?, AgentStep.target?, Option.some.injEq, reduceCtorEq, or_self,
    or_false, false_or] at h ha
  case inRead k => obtain ⟨-, -, rfl⟩ := inRead_some.1 h; exact ⟨rfl, rfl, rfl, rfl⟩
  case inSend => obtain ⟨-, -, -, rfl⟩ := inSend_some.1 h; exact ⟨rfl, rfl, rfl, rfl⟩
  case inNetError => obtain ⟨-, -, rfl⟩ := inNetError_some.1 h; exact ⟨rfl, rfl, rfl, rfl⟩
  case inIfaceError => obtain ⟨-, rfl⟩ := inIfaceError_some.1 h; exact ⟨rfl, rfl, rfl, rfl⟩
  case hostCancelIter l eff =>
    subst ha
    obtain ⟨-, -, rfl⟩ := hostCancelIter_some.1 h
    split
    · exact absorbCancel_inbound_isolated eff s
    · exact ⟨rfl, rfl, rfl, rfl⟩

/-- Settles O49: step by step, each loop and its cancellation touch their own flow. -/
theorem theLoopsAreIsolated : Obligations.TheLoopsAreIsolated :=
  fun _ _ _ h => ⟨fun ha => outbound_isolated ha h, fun ha => inbound_isolated ha h⟩

end Sys2Proof.Machine
end

