-- ==== Sys2Proof/Proofs/SessionEnd.lean ====
section
/-! SUPPORT. The end of a session (R119 to R122, R145): the record and the stopped loops are final, the residue of `hbuf` is
delivered or lost, and a run that is over changes no more. -/

namespace Sys2Proof.Machine

open Sys2Proof

variable {s t : State} {a : AgentStep}

/-! ### The record and the stopped loops -/

/-- An intervention stops running loops only. -/
theorem Intervenes.keeps_stopped (h : Intervenes s t) :
    (s.br.out_st.isStopped = true → t.br.out_st = s.br.out_st) ∧
      (s.br.in_st.isStopped = true → t.br.in_st = s.br.in_st) := by
  cases h with
  | raise l r hrun =>
    cases l with
    | outbound => exact ⟨fun hs => absurd hs (ne_true_of_eq_false hrun), fun _ => rfl⟩
    | inbound => exact ⟨fun _ => rfl, fun hs => absurd hs (ne_true_of_eq_false hrun)⟩
  | absorb l eff hrun =>
    cases l with
    | outbound =>
      exact ⟨fun hs => absurd hs (ne_true_of_eq_false hrun), fun _ => (absorbCancel_outbound_isolated eff s).1⟩
    | inbound =>
      exact ⟨fun _ => (absorbCancel_inbound_isolated eff s).1, fun hs => absurd hs (ne_true_of_eq_false hrun)⟩
  | supOutbound hsess hout => exact ⟨fun hs => by simp [hout] at hs, fun _ => rfl⟩
  | supInbound hsess _ hin => exact ⟨fun _ => rfl, fun hs => by simp [hin] at hs⟩
  | cancel => exact ⟨fun hs => if_pos hs, fun hs => if_pos hs⟩
  | residue => exact ⟨fun _ => rfl, fun _ => rfl⟩

theorem KeepsSession.keeps_stopped (h : KeepsSession s t) :
    (s.br.out_st.isStopped = true → t.br.out_st = s.br.out_st) ∧
      (s.br.in_st.isStopped = true → t.br.in_st = s.br.in_st) :=
  ⟨fun hs => h.out_st.resolve_right fun ⟨hrun, _⟩ => by simp [hs] at hrun,
    fun hs => h.in_st.resolve_right fun ⟨hrun, _⟩ => by simp [hs] at hrun⟩

/-- A stopped loop never moves again (R132). -/
theorem agentStep_keeps_stopped (h : agentStep a s = some t) :
    (s.br.out_st.isStopped = true → t.br.out_st = s.br.out_st) ∧
      (s.br.in_st.isStopped = true → t.br.in_st = s.br.in_st) := by
  obtain ⟨-, hi⟩ | ⟨-, hk⟩ := agentStep_cases h
  · exact hi.keeps_stopped
  · exact hk.keeps_stopped

/-- The first error is recorded once (R116, R121). -/
theorem agentStep_first_err {f : Reason} (h : agentStep a s = some t) (hf : s.br.first_err = some f) :
    t.br.first_err = some f := by
  obtain ⟨-, hi⟩ | ⟨-, hk⟩ := agentStep_cases h
  · cases hi with
    | raise l r => rw [raiseLoop_first_err, firstErr_of_some hf]
    | absorb l eff => cases eff <;> simp [absorbCancel, hf]
    | supOutbound | supInbound | residue => exact hf
    | cancel => exact congrArg some (firstErr_of_some hf _)
  · rw [hk.first_err, hf]

/-! ### The ended session -/

/-- A session in agreement with both loops stopped and a first error has ended with it. -/
theorem sess_of_both_stopped {b : Bridge} {f : Reason} (hb : SessionConsistent b) (hout : b.out_st.isStopped = true)
    (hin : b.in_st.isStopped = true) (hf : b.first_err = some f) : b.sess = .Ended f := by
  obtain ⟨hactive, hending, hended⟩ := hb
  cases hsess : b.sess with
  | Active =>
    obtain ⟨hrun, -⟩ := hactive hsess
    simp [hout] at hrun
  | Ending =>
    obtain ⟨hone, -⟩ := hending hsess
    simp [hout, hin] at hone
  | Ended r =>
    obtain ⟨-, -, herr⟩ := hended (by rw [hsess]; rfl)
    rw [hf, hsess] at herr
    rw [Option.some.inj herr]

/-- What an ended session is made of. -/
theorem of_ended {b : Bridge} {r : Reason} (hb : SessionConsistent b) (hsess : b.sess = .Ended r) :
    b.out_st.isStopped = true ∧ b.in_st.isStopped = true ∧ b.first_err = some r := by
  obtain ⟨-, -, hended⟩ := hb
  obtain ⟨hout, hin, herr⟩ := hended (by rw [hsess]; rfl)
  exact ⟨hout, hin, by rw [herr, hsess]; rfl⟩

/-- No agent changes an ended session, its loops, its record or what it has delivered. -/
theorem agentStep_of_ended {r : Reason} (hs : SessionConsistent s.br) (hsess : s.br.sess = .Ended r)
    (h : agentStep a s = some t) : t.br.sess = .Ended r ∧ t.br.out_st = s.br.out_st ∧ t.br.in_st = s.br.in_st ∧
      t.br.first_err = some r ∧ t.net.net_tx = s.net.net_tx := by
  obtain ⟨hout, hin, herr⟩ := of_ended hs hsess
  obtain ⟨hkeepOut, hkeepIn⟩ := agentStep_keeps_stopped h
  have hout' := hkeepOut hout
  have hin' := hkeepIn hin
  have herr' := agentStep_first_err h herr
  have htx : t.net.net_tx = s.net.net_tx := (agentStep_writers h).net_tx.resolve_right fun ⟨c, hc⟩ => by
    simp [hc, InSt.isStopped] at hin
  exact ⟨sess_of_both_stopped (agentStep_consistent h hs) (by rw [hout', hout]) (by rw [hin', hin]) herr', hout', hin',
    herr', htx⟩

/-- Settles O50: an agent's step keeps what is stopped and recorded; a tick and a reset touch neither bridge nor
network. -/
theorem theEndOfASessionIsFinal : Obligations.TheEndOfASessionIsFinal := by
  intro e s t hinv hlaunch h
  have hs := hinv.consistent
  obtain ⟨hbr, hnet⟩ | ⟨a, -, ha⟩ := stepEvent_bridge hlaunch h
  · rw [hbr, hnet]
    refine ⟨fun _ => id, fun _ => id, fun _ => id, fun r hr => ⟨hr, rfl, rfl, ?_, rfl⟩⟩
    obtain ⟨-, -, herr⟩ := of_ended hs hr
    exact herr
  · obtain ⟨hkeepOut, hkeepIn⟩ := agentStep_keeps_stopped ha
    refine ⟨fun f hf => agentStep_first_err ha hf, fun r hr => ?_, fun r hr => ?_,
      fun r hr => agentStep_of_ended hs hr ha⟩
    · rw [hkeepOut (by rw [hr]; rfl), hr]
    · rw [hkeepIn (by rw [hr]; rfl), hr]

/-! ### The residue -/

/-- Ticks and losses apart, the transport moves as many bytes from the front of `hbuf` as there is room for (R108). -/
theorem runEvents_xfers {c rest : List Byte} (es : List Event) (hadm : s.cfg.Admitted) (hbuf : s.br.hbuf = c ++ rest)
    (hroom : s.cmd_q.length + c.length ≤ s.cfg.CMD_DEPTH) :
    runEvents (List.replicate c.length (.agent .xfer) ++ es) s =
      runEvents es { s with cmd_q := s.cmd_q ++ c, br := { s.br with hbuf := rest } } := by
  induction c generalizing s with
  | nil =>
    rw [List.nil_append] at hbuf
    rw [List.append_nil, ← hbuf]
    rfl
  | cons b c ih =>
    rw [List.length_cons] at hroom
    have hxfer := xfer_of_room (rest := c ++ rest) hbuf (by omega)
    have hstep := (stepEvent_agent hadm .xfer).trans (congrArg Host.Outcome.next (agentTurn_of_some hxfer))
    rw [List.length_cons, List.replicate_succ, List.cons_append, runEvents_cons_of_next hstep, ih]
    · simp
    · exact hadm
    · rfl
    · simp only [List.length_append, List.length_singleton]
      omega

/-- Settles O47: the loss is the rule of its step; before it the transport may move any part that fits. -/
theorem theResidueIsDeliveredOrLost : Obligations.TheResidueIsDeliveredOrLost := by
  refine ⟨fun s t => loseResidue_some, fun s c rest hadm hsess hbuf hroom => ?_⟩
  have hlose : agentStep .loseResidue { s with cmd_q := s.cmd_q ++ c, br := { s.br with hbuf := rest } } =
      some { s with cmd_q := s.cmd_q ++ c, br := { s.br with hbuf := [] } } :=
    loseResidue_some.2 ⟨hsess, rfl⟩
  rw [runEvents_xfers _ hadm hbuf hroom, runEvents, stepEvent_agent (by exact hadm), agentTurn_of_some hlose]
  rfl

/-! ### The run that is over -/

/-- The tick of a state that waits, not for the timer, is that state. -/
theorem engStep_of_waiting (htimer : s.tickCond ≠ .TIMER_WAIT) (hrun : s.tickCond ≠ .RUN) : engStep s = .next s := by
  rw [Ne, tickCond_eq_TIMER_WAIT_iff, not_not] at htimer
  rw [Ne, tickCond_eq_RUN_iff, Bool.not_eq_true] at hrun
  rw [engStep_eq_apply, tickOut_of_no_pop hrun, countdown_of_zero htimer, apply_same]

theorem tickCond_congr (hcfg : t.cfg = s.cfg) (heng : t.eng = s.eng) (hcmd : t.cmd_q = s.cmd_q) (hsmp : t.smp_q = s.smp_q) :
    t.tickCond = s.tickCond := by
  rw [State.tickCond, State.tickCond, State.cmdHead, State.cmdHead, State.smpSpace, State.smpSpace, hcfg, heng, hcmd, hsmp]

/-- With both loops stopped and `hbuf` empty no agent moves a byte of the channels. -/
theorem agentStep_channels_of_stopped (hout : s.br.out_st.isStopped = true) (hin : s.br.in_st.isStopped = true)
    (hbuf : s.br.hbuf = []) (h : agentStep a s = some t) :
    t.br.hbuf = [] ∧ t.cmd_q = s.cmd_q ∧ t.smp_q = s.smp_q := by
  refine ⟨?_, ?_, ?_⟩
  · have hsub := (agentStep_writers h).hbuf.resolve_right fun ⟨c, hc⟩ => by simp [hc, OutSt.isStopped] at hout
    rw [hbuf] at hsub
    exact List.eq_nil_of_sublist_nil hsub
  · exact (agentStep_writers h).cmd_q.resolve_right fun ⟨_, b, hb, _⟩ => by simp [hbuf] at hb
  · exact (agentStep_writers h).smp_q.resolve_right fun ⟨k, _, hread, _⟩ => by simp [hread, InSt.isStopped] at hin

/-- Settles O55: a tick of a run that is over answers the same state; an agent's step leaves the engine, its channels, the
ended session and what it delivered. -/
theorem aRunThatIsOverStaysOver : Obligations.ARunThatIsOverStaysOver := by
  intro e s t hinv hover hin h
  have hs := hinv.consistent
  have hsame := hover
  obtain ⟨hended, hbuf, hcond⟩ := hover
  obtain ⟨-, ⟨tdo, rfl, htick⟩ | ⟨a, rfl, ha | ⟨-, rfl⟩⟩ | ⟨init, rfl, -⟩ | ⟨rfl, -⟩⟩ := stepEvent_next h
  · have hwait : s.tickCond ≠ .TIMER_WAIT ∧ s.tickCond ≠ .RUN := by
      obtain hc | hc | ⟨hc, -⟩ := hcond <;> simp [hc]
    obtain rfl := Host.Outcome.next.inj
      ((engStep_of_waiting (s := s.drawTdo tdo) hwait.1 hwait.2).symm.trans htick)
    exact ⟨hsame, rfl⟩
  · cases hsess : s.br.sess with
    | Active | Ending => simp [hsess, Sess.isEnded] at hended
    | Ended r =>
      obtain ⟨hout, hinb, herr⟩ := of_ended hs hsess
      obtain ⟨hcfg, heng, -, -⟩ := agentStep_frame ha
      obtain ⟨hbuf', hcmd', hsmp'⟩ := agentStep_channels_of_stopped hout hinb hbuf ha
      obtain ⟨hsess', -, hin', herr', htx'⟩ := agentStep_of_ended hs hsess ha
      refine ⟨⟨by rw [hsess']; rfl, hbuf', ?_⟩, ?_⟩
      · rwa [tickCond_congr hcfg heng hcmd' hsmp', hin']
      · rw [State.observe, State.observe, heng, htx', hsess', herr', hsess, herr]
  · exact ⟨hsame, rfl⟩
  · cases hin
  · cases hin

end Sys2Proof.Machine
end

