-- ==== Sys2Proof/Proofs/Fairness.lean ====
section
/-! SUPPORT. Rules of progress for infinite runs (R124): what holds until a fair step is taken leads to what that step
brings about. -/

namespace Sys2Proof.Machine

open Sys2Proof

variable {r : Run} {P Q : State → Prop}

/-! ### Leads to -/

/-- Wherever `P` holds in the run, `Q` holds then or later. -/
def Run.LeadsTo (r : Run) (P Q : State → Prop) : Prop := ∀ n, P (r.st n) → ∃ m, n ≤ m ∧ Q (r.st m)

/-- Where `P` holds in the run, it holds in the next state too, unless `Q` does. -/
def Run.Unless (r : Run) (P Q : State → Prop) : Prop := ∀ n, P (r.st n) → P (r.st (n + 1)) ∨ Q (r.st (n + 1))

/-- What holds unless `Q` does holds for ever, or `Q` comes. -/
theorem Run.Unless.always_or (h : r.Unless P Q) {n : Nat} (hn : P (r.st n)) :
    (∀ m, n ≤ m → P (r.st m)) ∨ ∃ m, n ≤ m ∧ Q (r.st m) := by
  by_cases hq : ∃ m, n ≤ m ∧ Q (r.st m)
  · exact .inr hq
  · left
    intro m hm
    induction m, hm using Nat.le_induction with
    | base => exact hn
    | succ m hm ih => exact (h m ih).resolve_right fun hQ => hq ⟨m + 1, Nat.le_succ_of_le hm, hQ⟩

theorem enabledIn_of_some {a : AgentStep} {s t : State} (h : agentStep a s = some t) : a.enabledIn s :=
  Option.isSome_iff_exists.2 ⟨t, h⟩

/-- An enabled step that the run takes is the step to its next state. -/
theorem Run.agentStep_of_ev {a : AgentStep} {n : Nat} (hen : a.enabledIn (r.st n)) (hev : r.ev n = .agent a) :
    agentStep a (r.st n) = some (r.st (n + 1)) := by
  obtain ⟨t, ht⟩ := Option.isSome_iff_exists.1 hen
  have hstep := r.step_ok n
  obtain ⟨hadm, -⟩ := stepEvent_next hstep
  rw [hev, stepEvent_agent hadm, agentTurn_of_some ht, Host.Outcome.next.injEq] at hstep
  rw [ht, hstep]

/-- While `P` keeps a step of a fair class enabled, and every step of the class from `P` brings `Q`, `P` leads to `Q`. -/
theorem Run.leadsTo_of_fair {A : AgentStep → Prop} (hfair : r.weaklyFair A) (hunless : r.Unless P Q)
    (hen : ∀ n, P (r.st n) → ∃ a, A a ∧ a.enabledIn (r.st n))
    (htake : ∀ n a, P (r.st n) → A a → agentStep a (r.st n) = some (r.st (n + 1)) → Q (r.st (n + 1))) :
    r.LeadsTo P Q := by
  intro n hn
  obtain halways | hcomes := hunless.always_or hn
  · obtain ⟨m, hm, a, hA, ha, hev⟩ := hfair n fun m hm => hen m (halways m hm)
    exact ⟨m + 1, Nat.le_succ_of_le hm, htake m a (halways m hm) hA (r.agentStep_of_ev ha hev)⟩
  · exact hcomes

/-- The same for the clock, which never stops. -/
theorem Run.leadsTo_of_tick (hclock : ∀ n, ∃ m, n ≤ m ∧ (r.ev m).isTick = true) (hunless : r.Unless P Q)
    (htick : ∀ n tdo, P (r.st n) → engStep ((r.st n).drawTdo tdo) = .next (r.st (n + 1)) → Q (r.st (n + 1))) :
    r.LeadsTo P Q := by
  intro n hn
  obtain halways | hcomes := hunless.always_or hn
  · obtain ⟨m, hm, hev⟩ := hclock n
    cases hcase : r.ev m with
    | eng tdo =>
      have hstep := r.step_ok m
      obtain ⟨hadm, -⟩ := stepEvent_next hstep
      rw [hcase, stepEvent_eng hadm] at hstep
      exact ⟨m + 1, Nat.le_succ_of_le hm, htick m tdo (halways m hm) hstep⟩
    | agent a | reset init | launch => simp [hcase, Event.isTick] at hev
  · exact hcomes

/-- A count that grows again and again while it is below a bound reaches the bound. -/
theorem Run.reaches {f : State → Nat} {k n : Nat}
    (hgrow : ∀ m, n ≤ m → f (r.st m) < k → ∃ m', m ≤ m' ∧ f (r.st m) < f (r.st m')) :
    ∃ m, n ≤ m ∧ k ≤ f (r.st m) := by
  induction hd : k - f (r.st n) using Nat.strong_induction_on generalizing n with
  | _ d ih =>
    by_cases hk : k ≤ f (r.st n)
    · exact ⟨n, le_rfl, hk⟩
    · obtain ⟨m, hm, hlt⟩ := hgrow n le_rfl (by omega)
      obtain ⟨m', hm', hreach⟩ := ih (k - f (r.st m)) (by omega) (fun i hi => hgrow i (hm.trans hi)) rfl
      exact ⟨m', hm.trans hm', hreach⟩

/-! ### The failed session -/

/-- The state of a session in which a loop has failed and the other still runs. -/
def EndingInv (s : State) : Prop := Inv s ∧ s.br.sess = .Ending

/-- With a recorded error a session in agreement is not active. -/
theorem ending_or_ended {b : Bridge} {f : Reason} (hb : SessionConsistent b) (hf : b.first_err = some f) :
    b.sess = .Ending ∨ b.sess.isEnded = true := by
  obtain ⟨hactive, -, -⟩ := hb
  cases hsess : b.sess with
  | Active =>
    obtain ⟨-, -, hnone⟩ := hactive hsess
    rw [hf] at hnone
    cases hnone
  | Ending => exact .inl rfl
  | Ended r => exact .inr rfl

/-- A failed session stays ending until it has ended. -/
theorem endingInv_unless (hin : ∀ n, (r.ev n).isOutside = false) :
    r.Unless EndingInv (fun s => s.br.sess.isEnded = true) := by
  intro n ⟨hinv, hsess⟩
  have hinv' : Inv (r.st (n + 1)) := stepEvent_inv hinv (r.step_ok n)
  obtain ⟨f, hf⟩ := first_err_of_ending hinv.consistent hsess
  have hlaunch : r.ev n ≠ .launch := fun h => by simpa [h, Event.isOutside] using hin n
  have hf' : (r.st (n + 1)).br.first_err = some f := by
    obtain ⟨hbr, -⟩ | ⟨a, -, ha⟩ := stepEvent_bridge hlaunch (r.step_ok n)
    · rw [hbr, hf]
    · exact agentStep_first_err ha hf
  obtain hending | hended := ending_or_ended hinv'.consistent hf'
  · exact .inl ⟨hinv', hending⟩
  · exact .inr hended

/-- Settles O53: the supervisor's step stays enabled until the session has ended, and ends it. -/
theorem aFairRunEndsAFailedSession : Obligations.AFairRunEndsAFailedSession := by
  intro r n hfair hin hinv hsess
  refine r.leadsTo_of_fair hfair.sup (endingInv_unless hin) (fun m ⟨hinv, hsess⟩ => ?enabled)
    (fun m a _ ha h => ?taken) n ⟨hinv, hsess⟩
  case enabled =>
    obtain ⟨-, hending, -⟩ := hinv.consistent
    obtain ⟨hone, -⟩ := hending hsess
    obtain ⟨t, ht⟩ := sup_enabled_iff.2 ⟨hsess, hone⟩
    exact ⟨.sup, rfl, enabledIn_of_some ht⟩
  case taken =>
    subst ha
    obtain ⟨-, ⟨-, -, h⟩ | ⟨-, -, h⟩⟩ := sup_some.1 h <;> rw [h] <;> rfl

end Sys2Proof.Machine
end

