-- ==== Sys2Proof/Proofs/Delivery.lean ====
section
/-! SUPPORT. A fair lossless run delivers everything (R124, R125). Each place a byte passes has a count of the bytes that
have reached it; no step lowers a count, and while one lags behind the one before it a fair step raises it. -/

namespace Sys2Proof.Machine

open Sys2Proof

variable {s t u : State} {r : Run} {p : Nat}

/-! ### The counts -/

/-- The client's bytes that have reached the command channel, since the engine's reset. -/
def State.entered (s : State) : Nat := s.pos + s.cmd_q.length

/-- The client's bytes that have reached `hbuf`. -/
def State.written (s : State) : Nat := s.entered + s.br.hbuf.length

/-- The client's bytes that have reached the outbound loop. -/
def State.received (s : State) : Nat := s.written + s.br.out_st.chunk.length

/-- The client's bytes that have reached the network endpoint. -/
def State.arrived (s : State) : Nat := s.received + s.net.net_rx.length

/-- The samples that have reached the client. -/
def State.delivered (s : State) : Nat := s.net.net_tx.length

/-- The samples that have reached the inbound loop. -/
def State.taken (s : State) : Nat := s.delivered + s.br.in_st.chunk.length

/-- The samples that have reached the sample channel. -/
def State.sampled (s : State) : Nat := s.taken + s.smp_q.length

theorem arrived_eq : s.arrived = s.pos + s.pendingCmds.length := by
  simp only [State.arrived, State.received, State.written, State.entered, State.pendingCmds, List.length_append]
  omega

theorem sampled_eq : s.sampled = s.sampleStream.length := by
  simp only [State.sampled, State.taken, State.delivered, State.sampleStream, List.length_append]

theorem delivered_le_taken (s : State) : s.delivered ≤ s.taken := Nat.le_add_right _ _

theorem pos_le_entered (s : State) : s.pos ≤ s.entered := Nat.le_add_right _ _

theorem pos_le_written (s : State) : s.pos ≤ s.written := (pos_le_entered s).trans (Nat.le_add_right _ _)

theorem pos_le_received (s : State) : s.pos ≤ s.received := (pos_le_written s).trans (Nat.le_add_right _ _)

/-- From `s` to `t` no count falls, and no more samples are pushed than bytes consumed. -/
structure Grows (s t : State) : Prop where
  pos : s.pos ≤ t.pos
  entered : s.entered ≤ t.entered
  written : s.written ≤ t.written
  received : s.received ≤ t.received
  arrived : s.arrived ≤ t.arrived
  delivered : s.delivered ≤ t.delivered
  taken : s.taken ≤ t.taken
  sampled : s.sampled ≤ t.sampled
  pushes : t.sampled + s.pos ≤ s.sampled + t.pos

theorem Grows.refl (s : State) : Grows s s :=
  ⟨le_rfl, le_rfl, le_rfl, le_rfl, le_rfl, le_rfl, le_rfl, le_rfl, le_rfl⟩

theorem Grows.trans (h : Grows s t) (k : Grows t u) : Grows s u where
  pos := h.pos.trans k.pos
  entered := h.entered.trans k.entered
  written := h.written.trans k.written
  received := h.received.trans k.received
  arrived := h.arrived.trans k.arrived
  delivered := h.delivered.trans k.delivered
  taken := h.taken.trans k.taken
  sampled := h.sampled.trans k.sampled
  pushes := by
    have hfirst := h.pushes
    have hsecond := k.pushes
    omega

/-- A tick moves a byte out of the command channel, and a sample into the sample channel only with one. -/
theorem tick_grows {tdo : Bit} (h : engStep (s.drawTdo tdo) = .next t) : Grows s t := by
  have hpos := tick_pos h
  have hpush : (pushedBy (.eng tdo) s).length ≤ (consumedBy (.eng tdo) s).length :=
    (pushedBy_length tdo s).trans_le List.count_le_length
  obtain ⟨-, hbr, hnet, -⟩ := engStep_frame h
  rw [drawTdo_br] at hbr
  rw [drawTdo_net] at hnet
  have hcmd : t.cmd_q.length + (consumedBy (.eng tdo) s).length = s.cmd_q.length := by
    rw [consumedBy_eng, engStep_next h, apply_cmd_q, drawTdo_cmd_q, Nat.add_comm, ← List.length_append,
      List.take_append_drop]
  have hsmp : t.smp_q.length = s.smp_q.length + (pushedBy (.eng tdo) s).length := by
    rw [pushedBy_eng, engStep_next h, apply_smp_q, List.length_append, drawTdo_smp_q]
  refine ⟨by omega, ?_, ?_, ?_, ?_, ?_, ?_, ?_, ?_⟩ <;>
    simp only [State.arrived, State.received, State.written, State.entered, State.sampled, State.taken, State.delivered,
      hbr, hnet, hsmp] <;>
    omega

/-- An agent's step that loses nothing moves bytes one place on. -/
theorem agentStep_grows {a : AgentStep} (hkeep : a.mayLose = false) (h : agentStep a s = some t) : Grows s t := by
  obtain ⟨-, -, hpos, -⟩ := agentStep_frame h
  obtain ⟨hpending, hsamples⟩ := agentStep_lossless_streams hkeep h
  have harrived : s.arrived ≤ t.arrived := by
    rw [arrived_eq, arrived_eq, hpos, hpending, List.length_append]
    omega
  have hsampled : t.sampled = s.sampled := by rw [sampled_eq, sampled_eq, hsamples]
  have hrest : s.entered ≤ t.entered ∧ s.written ≤ t.written ∧ s.received ≤ t.received ∧
      s.delivered ≤ t.delivered ∧ s.taken ≤ t.taken := by
    simp only [State.received, State.written, State.entered, State.taken, State.delivered]
    cases a <;> simp only [agentStep, AgentStep.mayLose, Bool.true_eq_false] at h hkeep
    case outRecv k => obtain ⟨hst, -, rfl⟩ := outRecv_some.1 h; simp [hst, OutSt.chunk]
    case outWrite => obtain ⟨c, hst, rfl⟩ := outWrite_some.1 h; simp [hst, OutSt.chunk]; omega
    case outFlush => obtain ⟨hst, -, rfl⟩ := outFlush_some.1 h; simp [hst, OutSt.chunk]
    case inRead k => obtain ⟨hst, -, rfl⟩ := inRead_some.1 h; simp [hst, InSt.chunk]
    case inSend => obtain ⟨c, hst, -, rfl⟩ := inSend_some.1 h; simp [hst, InSt.chunk]
    case xfer => obtain ⟨b, rest, hbuf, -, rfl⟩ := xfer_some.1 h; simp [hbuf]; omega
    case hostSend d => obtain ⟨-, rfl⟩ := hostSend_some.1 h; simp
    case hostClose => obtain ⟨-, rfl⟩ := hostClose_some.1 h; simp
    case hostBreak => obtain ⟨-, rfl⟩ := hostBreak_some.1 h; simp
  obtain ⟨hentered, hwritten, hreceived, hdelivered, htaken⟩ := hrest
  exact ⟨hpos.ge, hentered, hwritten, hreceived, harrived, hdelivered, htaken, hsampled.ge, by rw [hsampled, hpos]⟩

/-- What an event of a lossless run can do. -/
theorem stepEvent_lossless {e : Event} (he : e.lossless = true) (h : stepEvent e s = .next t) :
    (∃ tdo, engStep (s.drawTdo tdo) = .next t) ∨ (∃ a, a.mayLose = false ∧ agentStep a s = some t) ∨ t = s := by
  obtain ⟨-, ⟨tdo, rfl, htick⟩ | ⟨a, rfl, ha | ⟨-, rfl⟩⟩ | ⟨init, rfl, -⟩ | ⟨rfl, -⟩⟩ := stepEvent_next h
  · exact .inl ⟨tdo, htick⟩
  · exact .inr (.inl ⟨a, mayLose_of_lossless he, ha⟩)
  · exact .inr (.inr rfl)
  · cases he
  · cases he

/-! ### Stages of the two flows -/

/-- The engine has a byte to look at, at the stream position `p`, and its timer is at most `k`. -/
def Facing (p k : Nat) (s : State) : Prop := s.pos = p ∧ p < s.entered ∧ s.eng.timer ≤ k

/-- All that has reached the outbound loop is consumed, and more bytes are at the network. -/
def Behind (p : Nat) (s : State) : Prop := s.pos = p ∧ s.received = p ∧ p < s.arrived

/-- A tick consumes the head byte, or only counts the timer down. -/
theorem tick_timer_or_pos {tdo : Bit} (h : engStep (s.drawTdo tdo) = .next t) :
    s.pos < t.pos ∨ t.eng.timer = s.eng.timer - 1 := by
  rw [engStep_next h]
  cases hpop : (s.drawTdo tdo).tickOut.2.1 with
  | true =>
    left
    rw [apply_pos, hpop]
    exact Nat.lt_succ_self _
  | false =>
    right
    rw [apply_eng, tickOut_of_no_pop hpop]
    rfl

/-- The outbound loop's round: receive, write, flush, and again. -/
theorem agentStep_out_st {a : AgentStep} (hkeep : a.mayLose = false) (h : agentStep a s = some t) :
    t.br.out_st = s.br.out_st ∨ (s.br.out_st = .Recv ∧ ∃ c, t.br.out_st = .Write c) ∨
      (∃ c, s.br.out_st = .Write c) ∨ (s.br.out_st = .Flush ∧ t.br.out_st = .Recv) := by
  cases a <;> simp only [agentStep, AgentStep.mayLose, Bool.true_eq_false] at h hkeep
  case outRecv k => obtain ⟨hst, -, rfl⟩ := outRecv_some.1 h; exact .inr (.inl ⟨hst, _, rfl⟩)
  case outWrite => obtain ⟨c, hst, rfl⟩ := outWrite_some.1 h; exact .inr (.inr (.inl ⟨c, hst⟩))
  case outFlush => obtain ⟨hst, -, rfl⟩ := outFlush_some.1 h; exact .inr (.inr (.inr ⟨hst, rfl⟩))
  case inRead k => obtain ⟨-, -, rfl⟩ := inRead_some.1 h; exact .inl rfl
  case inSend => obtain ⟨-, -, -, rfl⟩ := inSend_some.1 h; exact .inl rfl
  case xfer => obtain ⟨-, -, -, -, rfl⟩ := xfer_some.1 h; exact .inl rfl
  case hostSend d => obtain ⟨-, rfl⟩ := hostSend_some.1 h; exact .inl rfl
  case hostClose => obtain ⟨-, rfl⟩ := hostClose_some.1 h; exact .inl rfl
  case hostBreak => obtain ⟨-, rfl⟩ := hostBreak_some.1 h; exact .inl rfl

/-! ### The runs -/

/-- The premises of delivery, with what they imply of every state: a fair run of an active session without an error, a
cancellation, a loss or a wedge, to a client that reads over a sound transport. -/
structure Run.Delivering (r : Run) : Prop where
  fair : r.Fair
  reads : r.ClientReads
  inv : ∀ n, Inv (r.st n)
  active : ∀ n, (r.st n).br.sess = .Active
  lossless : ∀ n, (r.ev n).lossless = true
  unwedged : ∀ n, ¬ Wedged (r.st n)
  sound : ∀ n, (r.st n).net.net_broken = false

/-- An event that loses nothing leaves the session as it is. -/
theorem stepEvent_lossless_sess {e : Event} (he : e.lossless = true) (h : stepEvent e s = .next t) :
    t.br.sess = s.br.sess := by
  obtain ⟨tdo, htick⟩ | ⟨a, hkeep, ha⟩ | rfl := stepEvent_lossless he h
  · obtain ⟨-, hbr, -⟩ := engStep_frame htick
    exact congrArg Bridge.sess hbr
  · exact (keepsSession_of_lossless hkeep ha).sess
  · rfl

theorem Run.delivering (hfair : r.Fair) (hreads : r.ClientReads) (hinv : Inv (r.st 0))
    (hactive : (r.st 0).br.sess = .Active) (hlossless : ∀ n, (r.ev n).lossless = true)
    (hunwedged : ∀ n, ¬ Wedged (r.st n)) (hsound : ∀ n, (r.st n).net.net_broken = false) : r.Delivering where
  fair := hfair
  reads := hreads
  inv n := by
    induction n with
    | zero => exact hinv
    | succ n ih => exact stepEvent_inv ih (r.step_ok n)
  active n := by
    induction n with
    | zero => exact hactive
    | succ n ih => rw [stepEvent_lossless_sess (hlossless n) (r.step_ok n), ih]
  lossless := hlossless
  unwedged := hunwedged
  sound := hsound

namespace Run.Delivering

theorem step_grows (hr : r.Delivering) (n : Nat) : Grows (r.st n) (r.st (n + 1)) := by
  obtain ⟨tdo, htick⟩ | ⟨a, hkeep, ha⟩ | hwait := stepEvent_lossless (hr.lossless n) (r.step_ok n)
  · exact tick_grows htick
  · exact agentStep_grows hkeep ha
  · rw [hwait]
    exact .refl _

theorem grows (hr : r.Delivering) {n m : Nat} (hm : n ≤ m) : Grows (r.st n) (r.st m) := by
  induction m, hm using Nat.le_induction with
  | base => exact .refl _
  | succ m hm ih => exact ih.trans (hr.step_grows m)

/-- Both loops run in an active session. -/
theorem running (hr : r.Delivering) (n : Nat) :
    (r.st n).br.out_st.isStopped = false ∧ (r.st n).br.in_st.isStopped = false := by
  obtain ⟨hactive, -⟩ := (hr.inv n).consistent
  obtain ⟨hout, hin, -⟩ := hactive (hr.active n)
  exact ⟨hout, hin⟩

/-! ### The samples -/

/-- A chunk the inbound loop holds is sent. -/
theorem taken_delivered (hr : r.Delivering) (q : Nat) :
    r.LeadsTo (fun s => s.delivered = q ∧ q < s.taken) (fun s => q < s.delivered) := by
  refine Run.leadsTo_of_fair hr.reads (fun n ⟨hq, hlag⟩ => ?stays) (fun n ⟨hq, hlag⟩ => ?enabled)
    (fun n a ⟨hq, hlag⟩ ha h => ?taken)
  case stays =>
    have hdelivered := (hr.step_grows n).delivered
    have htaken := (hr.step_grows n).taken
    omega
  case enabled =>
    cases hst : (r.st n).br.in_st with
    | Send c => exact ⟨.inSend, rfl, enabledIn_of_some (inSend_some.2 ⟨c, hst, hr.sound n, rfl⟩)⟩
    | Read | Stopped e => simp [State.taken, hst, InSt.chunk, hq] at hlag
  case taken =>
    subst ha
    obtain ⟨c, hst, -, ht⟩ := inSend_some.1 h
    simp only [State.taken, hst, InSt.chunk] at hlag
    simp only [ht, State.delivered, List.length_append] at hq hlag ⊢
    omega

/-- A sample in the channel is read by the inbound loop once it holds none. -/
theorem sampled_taken (hr : r.Delivering) (q : Nat) :
    r.LeadsTo (fun s => s.delivered = q ∧ s.taken = q ∧ q < s.sampled) (fun s => q < s.taken) := by
  refine Run.leadsTo_of_fair hr.fair.read (fun n ⟨hq, hheld, hlag⟩ => ?stays) (fun n ⟨hq, hheld, hlag⟩ => ?enabled)
    (fun n a ⟨hq, hheld, hlag⟩ ha h => ?taken)
  case stays =>
    have hdelivered := (hr.step_grows n).delivered
    have htaken := (hr.step_grows n).taken
    have hsampled := (hr.step_grows n).sampled
    have hle := delivered_le_taken (r.st (n + 1))
    omega
  case enabled =>
    cases hst : (r.st n).br.in_st with
    | Read =>
      obtain ⟨-, -, -, -, -, hmax, -⟩ := (hr.inv n).admitted
      have hone : 1 ≤ min (r.st n).smp_q.length (r.st n).cfg.READ_MAX := by
        simp only [State.sampled] at hlag
        omega
      exact ⟨.inRead 1, ⟨1, rfl⟩, enabledIn_of_some (inRead_some.2 ⟨hst, ⟨le_rfl, hone⟩, rfl⟩)⟩
    | Send c =>
      obtain ⟨-, hne⟩ := (hr.inv n).chunksNonempty
      have hempty : c = [] := List.length_eq_zero_iff.1 (by simp only [State.taken, hst, InSt.chunk] at hheld; omega)
      exact absurd (hst.trans (congrArg InSt.Send hempty)) hne
    | Stopped e => exact absurd (hr.running n).2 (by simp [hst, InSt.isStopped])
  case taken =>
    obtain ⟨k, rfl⟩ := ha
    obtain ⟨-, hk, ht⟩ := inRead_some.1 h
    simp only [ht, State.taken, State.delivered, InSt.chunk, List.length_take] at hq ⊢
    omega

/-- A sample under way is at last one more at the client. -/
theorem sampled_delivered (hr : r.Delivering) (q : Nat) :
    r.LeadsTo (fun s => s.delivered = q ∧ q < s.sampled) (fun s => q < s.delivered) := by
  intro n ⟨hq, hlag⟩
  by_cases hheld : q < (r.st n).taken
  · exact hr.taken_delivered q n ⟨hq, hheld⟩
  · have htaken : (r.st n).taken = q := by
      have hle := delivered_le_taken (r.st n)
      omega
    obtain ⟨m, hm, hheld'⟩ := hr.sampled_taken q n ⟨hq, htaken, hlag⟩
    by_cases hdone : q < (r.st m).delivered
    · exact ⟨m, hm, hdone⟩
    · have hdelivered := (hr.grows hm).delivered
      obtain ⟨m', hm', hmore⟩ := hr.taken_delivered q m ⟨by omega, hheld'⟩
      exact ⟨m', hm.trans hm', hmore⟩

/-- Every sample pushed is at last at the client. -/
theorem delivers_samples (hr : r.Delivering) (n : Nat) :
    ∃ m, n ≤ m ∧ (r.st n).sampled ≤ (r.st m).delivered := by
  refine Run.reaches fun m hm hlag => ?_
  have hsampled := (hr.grows hm).sampled
  exact hr.sampled_delivered _ m ⟨rfl, by omega⟩

/-! ### The engine -/

theorem facing_unless (hr : r.Delivering) (p k : Nat) : r.Unless (Facing p k) (fun s => p < s.pos) := by
  intro n ⟨hp, hlag, htimer⟩
  have hpos := (hr.step_grows n).pos
  have hentered := (hr.step_grows n).entered
  have hcount : (r.st n).pos < (r.st (n + 1)).pos ∨ (r.st (n + 1)).eng.timer ≤ (r.st n).eng.timer := by
    obtain ⟨tdo, htick⟩ | ⟨a, -, ha⟩ | hwait := stepEvent_lossless (hr.lossless n) (r.step_ok n)
    · exact (tick_timer_or_pos htick).imp_right fun h => h.trans_le (Nat.sub_le _ _)
    · obtain ⟨-, heng, -, -⟩ := agentStep_frame ha
      exact .inr (by rw [heng])
    · exact .inr (by rw [hwait])
  simp only [Facing]
  omega

/-- The timer runs out. -/
theorem facing_counts_down (hr : r.Delivering) (p k : Nat) :
    r.LeadsTo (Facing p k) (fun s => Facing p 0 s ∨ p < s.pos) := by
  induction k with
  | zero => exact fun n hn => ⟨n, le_rfl, .inl hn⟩
  | succ k ih =>
    intro n hn
    have hstep : r.LeadsTo (Facing p (k + 1)) (fun s => Facing p k s ∨ p < s.pos) := by
      refine Run.leadsTo_of_tick hr.fair.eng (fun m hm => (hr.facing_unless p (k + 1) m hm).imp_right .inr)
        (fun m tdo hm htick => ?_)
      obtain ⟨hp, hlag, htimer⟩ | hmore := hr.facing_unless p (k + 1) m hm
      · obtain ⟨hp', -, htimer'⟩ := hm
        have hcount := tick_timer_or_pos htick
        exact .inl ⟨hp, hlag, by omega⟩
      · exact .inr hmore
    obtain ⟨m, hm, hfacing | hmore⟩ := hstep n hn
    · obtain ⟨m', hm', hdone⟩ := ih m hfacing
      exact ⟨m', hm.trans hm', hdone⟩
    · exact ⟨m, hm, .inr hmore⟩

/-- With the timer at 0 and an empty sample channel the byte at the head is consumed by the next tick. -/
theorem facing_consumes (hr : r.Delivering) (p : Nat) :
    r.LeadsTo (fun s => Facing p 0 s ∧ s.smp_q = []) (fun s => p < s.pos) := by
  refine Run.leadsTo_of_tick hr.fair.eng (fun n ⟨hfacing, hempty⟩ => ?stays)
    (fun n tdo ⟨⟨hp, hlag, htimer⟩, hempty⟩ htick => ?tick)
  case stays =>
    refine (hr.facing_unless p 0 n hfacing).imp_left fun hfacing' => ⟨hfacing', List.length_eq_zero_iff.1 ?_⟩
    have hp := hfacing.1
    have hp' := hfacing'.1
    have hpushes := (hr.step_grows n).pushes
    have htaken := (hr.step_grows n).taken
    simp only [State.sampled, hempty, List.length_nil] at hpushes
    omega
  case tick =>
    obtain ⟨-, -, -, hdepth, -⟩ := (hr.inv n).admitted
    have hzero : (r.st n).eng.timer = 0 := Nat.le_zero.1 htimer
    have hspace : (r.st n).smpSpace = true := smpSpace_iff.2 (by rw [hempty]; exact hdepth)
    cases hq : (r.st n).cmd_q with
    | nil => simp [State.entered, hq, hp] at hlag
    | cons b q =>
      have hhead : (r.st n).cmd_q.head? = some b := by rw [hq, List.head?_cons]
      have hknown : cls b ≠ .unknown := fun hb => hr.unwedged n ⟨hzero, b, hhead, hb⟩
      have hpop : ((r.st n).drawTdo tdo).tickOut.2.1 = true :=
        tickOut_pop_iff.2 ⟨hzero, b, hhead, hknown, fun _ => hspace⟩
      rw [engStep_next htick, apply_pos, hpop, drawTdo_pos, hp]
      exact Nat.lt_succ_self _

/-- A byte in the command channel is at last consumed: the timer runs out, and the client takes every sample. -/
theorem entered_consumed (hr : r.Delivering) (p : Nat) :
    r.LeadsTo (fun s => s.pos = p ∧ p < s.entered) (fun s => p < s.pos) := by
  intro n ⟨hp, hlag⟩
  obtain ⟨i, hi, hready | hdone⟩ := hr.facing_counts_down p _ n ⟨hp, hlag, le_rfl⟩
  · obtain halways | ⟨m, hm, hdone⟩ := (hr.facing_unless p 0).always_or hready
    · obtain ⟨m, hm, hsamples⟩ := hr.delivers_samples i
      have hempty : (r.st m).smp_q = [] := by
        have hpi := hready.1
        have hpm := (halways m hm).1
        have hpushes := (hr.grows hm).pushes
        refine List.length_eq_zero_iff.1 ?_
        simp only [State.sampled, State.taken] at *
        omega
      obtain ⟨m', hm', hdone⟩ := hr.facing_consumes p m ⟨halways m hm, hempty⟩
      exact ⟨m', hi.trans (hm.trans hm'), hdone⟩
    · exact ⟨m, hi.trans hm, hdone⟩
  · exact ⟨i, hi, hdone⟩

/-! ### The bridge's outbound side -/

/-- A byte in `hbuf` is moved once the command channel is empty. -/
theorem written_entered (hr : r.Delivering) (p : Nat) :
    r.LeadsTo (fun s => s.pos = p ∧ s.entered = p ∧ p < s.written) (fun s => p < s.entered) := by
  refine Run.leadsTo_of_fair hr.fair.xfer (fun n ⟨hp, hdone, hlag⟩ => ?stays) (fun n ⟨hp, hdone, hlag⟩ => ?enabled)
    (fun n a ⟨hp, hdone, hlag⟩ ha h => ?taken)
  case stays =>
    have hpos := (hr.step_grows n).pos
    have hentered := (hr.step_grows n).entered
    have hwritten := (hr.step_grows n).written
    have hle := pos_le_entered (r.st (n + 1))
    omega
  case enabled =>
    obtain ⟨-, -, hdepth, -⟩ := (hr.inv n).admitted
    cases hbuf : (r.st n).br.hbuf with
    | nil => simp [State.written, hbuf, hdone] at hlag
    | cons b rest =>
      have hroom : (r.st n).cmd_q.length < (r.st n).cfg.CMD_DEPTH := by
        simp only [State.entered] at hdone
        omega
      exact ⟨.xfer, rfl, enabledIn_of_some (xfer_of_room hbuf hroom)⟩
  case taken =>
    subst ha
    obtain ⟨b, rest, -, -, ht⟩ := xfer_some.1 h
    simp only [ht, State.entered, List.length_append, List.length_singleton] at hdone ⊢
    omega

/-- A chunk the outbound loop holds is written once everything before it is consumed. -/
theorem received_written (hr : r.Delivering) (p : Nat) :
    r.LeadsTo (fun s => s.pos = p ∧ s.written = p ∧ p < s.received) (fun s => p < s.written) := by
  refine Run.leadsTo_of_fair hr.fair.write (fun n ⟨hp, hdone, hlag⟩ => ?stays) (fun n ⟨hp, hdone, hlag⟩ => ?enabled)
    (fun n a ⟨hp, hdone, hlag⟩ ha h => ?taken)
  case stays =>
    have hpos := (hr.step_grows n).pos
    have hwritten := (hr.step_grows n).written
    have hreceived := (hr.step_grows n).received
    have hle := pos_le_written (r.st (n + 1))
    omega
  case enabled =>
    cases hst : (r.st n).br.out_st with
    | Write c => exact ⟨.outWrite, rfl, enabledIn_of_some (outWrite_some.2 ⟨c, hst, rfl⟩)⟩
    | Recv | Flush | Stopped e => simp [State.received, hst, OutSt.chunk, hdone] at hlag
  case taken =>
    subst ha
    obtain ⟨c, hst, ht⟩ := outWrite_some.1 h
    simp only [State.received, hst, OutSt.chunk] at hlag
    simp only [ht, State.written, State.entered, List.length_append] at hdone hlag ⊢
    omega

/-- The outbound loop's round in a run. -/
theorem step_out_st (hr : r.Delivering) (n : Nat) :
    (r.st (n + 1)).br.out_st = (r.st n).br.out_st ∨
      ((r.st n).br.out_st = .Recv ∧ ∃ c, (r.st (n + 1)).br.out_st = .Write c) ∨
      (∃ c, (r.st n).br.out_st = .Write c) ∨
      ((r.st n).br.out_st = .Flush ∧ (r.st (n + 1)).br.out_st = .Recv) := by
  obtain ⟨tdo, htick⟩ | ⟨a, hkeep, ha⟩ | hwait := stepEvent_lossless (hr.lossless n) (r.step_ok n)
  · obtain ⟨-, hbr, -, -⟩ := engStep_frame htick
    exact .inl (congrArg Bridge.out_st hbr)
  · exact agentStep_out_st hkeep ha
  · exact .inl (by rw [hwait])

/-- Being behind lasts until the loop receives. -/
theorem behind_unless (hr : r.Delivering) (p : Nat) : r.Unless (Behind p) (fun s => p < s.received) := by
  intro n ⟨hp, hdone, hlag⟩
  have hpos := (hr.step_grows n).pos
  have hreceived := (hr.step_grows n).received
  have harrived := (hr.step_grows n).arrived
  have hle := pos_le_received (r.st (n + 1))
  simp only [Behind]
  omega

/-- A loop that is behind holds no chunk, and `hbuf` is empty. -/
theorem behind_empty (hr : r.Delivering) {n : Nat} (h : Behind p (r.st n)) :
    (r.st n).br.hbuf = [] ∧ ∀ c, (r.st n).br.out_st ≠ .Write c := by
  obtain ⟨hp, hdone, -⟩ := h
  simp only [State.received, State.written, State.entered] at hdone
  refine ⟨List.length_eq_zero_iff.1 (by omega), fun c hst => ?_⟩
  obtain ⟨hne, -⟩ := (hr.inv n).chunksNonempty
  rw [hst, OutSt.chunk] at hdone
  have hempty : c = [] := List.length_eq_zero_iff.1 (by omega)
  exact hne (hst.trans (congrArg OutSt.Write hempty))

/-- A loop at its receive receives. -/
theorem recv_receives (hr : r.Delivering) (p : Nat) :
    r.LeadsTo (fun s => Behind p s ∧ s.br.out_st = .Recv) (fun s => p < s.received) := by
  refine Run.leadsTo_of_fair hr.fair.recv (fun n ⟨hbehind, hst⟩ => ?stays) (fun n ⟨hbehind, hst⟩ => ?enabled)
    (fun n a ⟨hbehind, hst⟩ ha h => ?taken)
  case stays =>
    refine (hr.behind_unless p n hbehind).imp_left fun hbehind' => ⟨hbehind', ?_⟩
    obtain ⟨-, hnowrite⟩ := hr.behind_empty hbehind'
    obtain hsame | ⟨-, c, hw⟩ | ⟨c, hw⟩ | ⟨hf, -⟩ := hr.step_out_st n
    · rw [hsame, hst]
    · exact absurd hw (hnowrite c)
    · simp [hst] at hw
    · simp [hst] at hf
  case enabled =>
    obtain ⟨-, hdone, hlag⟩ := hbehind
    obtain ⟨-, -, -, -, hmax, -⟩ := (hr.inv n).admitted
    have hone : 1 ≤ min (r.st n).net.net_rx.length (r.st n).cfg.RECV_MAX := by
      simp only [State.arrived] at hlag
      omega
    exact ⟨.outRecv 1, ⟨1, rfl⟩, enabledIn_of_some (outRecv_some.2 ⟨hst, ⟨le_rfl, hone⟩, rfl⟩)⟩
  case taken =>
    obtain ⟨k, rfl⟩ := ha
    obtain ⟨-, hk, ht⟩ := outRecv_some.1 h
    obtain ⟨-, hdone, -⟩ := hbehind
    simp only [State.received, State.written, State.entered, hst, OutSt.chunk, List.length_nil] at hdone
    simp only [ht, State.received, State.written, State.entered, OutSt.chunk, List.length_take]
    omega

/-- A loop at its flush, with `hbuf` empty, comes to its receive. -/
theorem flush_completes (hr : r.Delivering) (p : Nat) : r.LeadsTo (fun s => Behind p s ∧ s.br.out_st = .Flush)
    (fun s => (Behind p s ∧ s.br.out_st = .Recv) ∨ p < s.received) := by
  refine Run.leadsTo_of_fair hr.fair.flush (fun n ⟨hbehind, hst⟩ => ?stays) (fun n ⟨hbehind, hst⟩ => ?enabled)
    (fun n a ⟨hbehind, hst⟩ ha h => ?taken)
  case stays =>
    obtain hbehind' | hmore := hr.behind_unless p n hbehind
    · obtain hsame | ⟨hrecv, -⟩ | ⟨c, hw⟩ | ⟨-, hrecv⟩ := hr.step_out_st n
      · exact .inl ⟨hbehind', hsame.trans hst⟩
      · simp [hst] at hrecv
      · simp [hst] at hw
      · exact .inr (.inl ⟨hbehind', hrecv⟩)
    · exact .inr (.inr hmore)
  case enabled =>
    obtain ⟨hbuf, -⟩ := hr.behind_empty hbehind
    exact ⟨.outFlush, rfl, enabledIn_of_some (outFlush_some.2 ⟨hst, hbuf, rfl⟩)⟩
  case taken =>
    subst ha
    obtain ⟨-, -, ht⟩ := outFlush_some.1 h
    exact (hr.behind_unless p n hbehind).imp_left fun hbehind' => ⟨hbehind', by rw [ht]⟩

/-- A byte at the network is received once everything before it is consumed. -/
theorem arrived_received (hr : r.Delivering) (p : Nat) :
    r.LeadsTo (Behind p) (fun s => p < s.received) := by
  intro n hbehind
  obtain ⟨-, hnowrite⟩ := hr.behind_empty hbehind
  cases hst : (r.st n).br.out_st with
  | Recv => exact hr.recv_receives p n ⟨hbehind, hst⟩
  | Write c => exact absurd hst (hnowrite c)
  | Flush =>
    obtain ⟨m, hm, hrecv | hmore⟩ := hr.flush_completes p n ⟨hbehind, hst⟩
    · obtain ⟨m', hm', hmore⟩ := hr.recv_receives p m hrecv
      exact ⟨m', hm.trans hm', hmore⟩
    · exact ⟨m, hm, hmore⟩
  | Stopped e => exact absurd (hr.running n).1 (by simp [hst, OutSt.isStopped])

/-! ### Everything is consumed -/

/-- Progress from one place to the next adds up: if a byte that has reached `f` is at last consumed, and one that has
reached `g` at last reaches `f`, then a byte that has reached `g` is at last consumed. -/
theorem consumed_of_next (hr : r.Delivering) {f g : State → Nat} (hpos : ∀ s : State, s.pos ≤ f s)
    (hconsumed : r.LeadsTo (fun s => s.pos = p ∧ p < f s) (fun s => p < s.pos))
    (hnext : r.LeadsTo (fun s => s.pos = p ∧ f s = p ∧ p < g s) (fun s => p < f s)) :
    r.LeadsTo (fun s => s.pos = p ∧ p < g s) (fun s => p < s.pos) := by
  intro n ⟨hp, hlag⟩
  have hf := hpos (r.st n)
  obtain hlater | hhere := (hp.symm.trans_le hf).lt_or_eq
  · exact hconsumed n ⟨hp, hlater⟩
  · obtain ⟨m, hm, hreached⟩ := hnext n ⟨hp, hhere.symm, hlag⟩
    obtain hdone | hstill := (hp.symm.trans_le (hr.grows hm).pos).lt_or_eq
    · exact ⟨m, hm, hdone⟩
    · obtain ⟨m', hm', hdone⟩ := hconsumed m ⟨hstill.symm, hreached⟩
      exact ⟨m', hm.trans hm', hdone⟩

theorem arrived_consumed (hr : r.Delivering) (p : Nat) :
    r.LeadsTo (fun s => s.pos = p ∧ p < s.arrived) (fun s => p < s.pos) := by
  have hwrittenConsumed := hr.consumed_of_next pos_le_entered (hr.entered_consumed p) (hr.written_entered p)
  have hreceivedConsumed := hr.consumed_of_next pos_le_written hwrittenConsumed (hr.received_written p)
  exact hr.consumed_of_next pos_le_received hreceivedConsumed (hr.arrived_received p)

/-- Every byte the client has sent is at last consumed. -/
theorem consumes_commands (hr : r.Delivering) (n : Nat) : ∃ m, n ≤ m ∧ (r.st n).arrived ≤ (r.st m).pos := by
  refine Run.reaches fun m hm hlag => ?_
  have harrived := (hr.grows hm).arrived
  exact hr.arrived_consumed _ m ⟨rfl, by omega⟩

end Run.Delivering

/-- Settles O54: both streams catch up with what has entered them, and no count falls afterwards. -/
theorem aFairLosslessRunDeliversEverything : Obligations.AFairLosslessRunDeliversEverything := by
  intro r hfair hreads hinv hactive hlossless hunwedged hsound n
  have hr : r.Delivering := r.delivering hfair hreads hinv hactive hlossless hunwedged hsound
  obtain ⟨i, hi, hcommands⟩ := hr.consumes_commands n
  obtain ⟨j, hj, hsamples⟩ := hr.delivers_samples n
  rw [arrived_eq] at hcommands
  rw [sampled_eq] at hsamples
  exact ⟨max i j, hi.trans (le_max_left i j), hcommands.trans (hr.grows (le_max_left i j)).pos,
    hsamples.trans (hr.grows (le_max_right i j)).delivered⟩

end Sys2Proof.Machine
end
